-- ==== Sys2Proof/Word.lean ====
section
/-! DEFINITION. The word types of the core: bytes, 16-bit words, nibbles and 12-bit addresses (spec/00_scope.md R5, spec/10_state.md R20 to R23). -/

namespace Sys2Proof

/-- A byte: a memory cell, a general register, a timer (R20, R26, R29). -/
abbrev Byte := BitVec 8

/-- A 16-bit word: the instruction word, `I`, `pc`, a stack entry (R22, R23, R24, R60). -/
abbrev Word := BitVec 16

/-- A 4-bit value: an instruction field, a key number (R61, R9). -/
abbrev Nibble := BitVec 4

/-- The 4-bit number of a general register: every value names one (R20). -/
abbrev RegIx := BitVec 4

/-- The 12-bit field `nnn` (R61). -/
abbrev Addr12 := BitVec 12

/-- VF, the register that receives the flags (R21). -/
def regVF : RegIx := 15#4

/-- `zext_16` of a byte (R6). -/
def Byte.toWord (b : Byte) : Word := b.setWidth 16

/-- `zext_16` of a 12-bit address (R6, R63). -/
def Addr12.toWord (a : Addr12) : Word := a.setWidth 16

/-- `zext_8` of a nibble (R6). -/
def Nibble.toByte (k : Nibble) : Byte := k.setWidth 8

end Sys2Proof
end

