-- ==== Sys2Proof/Config.lean ====
section
/-! DEFINITION. What an implementation of the core fixes (spec/00_scope.md R4), and the free values: the inputs the host presents at each step (R9, R10). -/

namespace Sys2Proof.Config

/-- `MEM_SIZE` (R4, R41): addresses 0x000 to 0xFFF. -/
def memSize : Nat := 4096

/-- `FONT_BASE` (R4, R42). -/
def fontBase : Nat := 0x050

/-- `FONT_SIZE` (R4, R42): 16 glyphs of 5 bytes. -/
def fontSize : Nat := 80

/-- `PROG_BASE` (R4, R42), the reset value of `pc`. -/
def progBase : Nat := 0x200

/-- `PROG_MAX` (R4, R201): the longest program that `reset_load` accepts. -/
def progMax : Nat := 3584

/-- The parameters that `reset_load` fixes and that a rule reads afterwards (R4, R204). -/
structure Params where
  /-- `STACK_DEPTH`; `none` is the admissible value "unbounded" (R4, R95, D6, U7). -/
  stackDepth : Option Nat
  /-- `STRICT_DECODE` (R4, R67, D7, U5). -/
  strictDecode : Bool
  deriving DecidableEq, Repr

/-- The defaults of R4: a stack of 16 entries, lenient decoding. -/
def defaultParams : Params := { stackDepth := some 16, strictDecode := false }

/-- The parameter `FONT`: 80 bytes (R4, R203). -/
abbrev Font := Vector Byte 80

/-- The default `FONT`, the table of spec/70_reset_and_hazards.md R203, one glyph a line (PRESUMED by the spec itself, G1; log entry 6). -/
def defaultFont : Font := #v[
  0xF0, 0x90, 0x90, 0x90, 0xF0,
  0x20, 0x60, 0x20, 0x20, 0x70,
  0xF0, 0x10, 0xF0, 0x80, 0xF0,
  0xF0, 0x10, 0xF0, 0x10, 0xF0,
  0x90, 0x90, 0xF0, 0x10, 0x10,
  0xF0, 0x80, 0xF0, 0x10, 0xF0,
  0xF0, 0x80, 0xF0, 0x90, 0xF0,
  0xF0, 0x10, 0x20, 0x40, 0x40,
  0xF0, 0x90, 0xF0, 0x90, 0xF0,
  0xF0, 0x90, 0xF0, 0x10, 0xF0,
  0xF0, 0x90, 0xF0, 0x90, 0x90,
  0xE0, 0x90, 0xE0, 0x90, 0xE0,
  0xF0, 0x80, 0x80, 0x80, 0xF0,
  0xE0, 0x90, 0x90, 0x90, 0xE0,
  0xF0, 0x80, 0xF0, 0x80, 0xF0,
  0xF0, 0x80, 0xF0, 0x80, 0x80]

/-- FREE VALUE: the 16 key levels the host presents at the step with this number (R9, R10, U2; log entry 3). Bit `k` is `keys[k]`. -/
opaque keysAt : Nat → BitVec 16

/-- FREE VALUE: the random byte of the step with this number (R10, U1; log entry 3). -/
opaque rndAt : Nat → Byte

/-- FREE VALUE: the key press, if any, that the host delivers in place of the step with this number while the core is parked (R9, R154, U2; log entries 3 and 4). -/
opaque pressAt : Nat → Option Nibble

end Sys2Proof.Config
end

