-- ==== Sys2Proof/Syntax.lean ====
section
/-! DEFINITION. The instructions: one constructor per row of spec/opcode_table.json (spec/30_encoding.md R65), and the six fields every word is cut into (R61). -/

namespace Sys2Proof

/-- The six fields that the decoder extracts from every instruction word (R61). -/
structure Fields where
  op  : Nibble
  x   : RegIx
  y   : RegIx
  kk  : Byte
  n   : Nibble
  nnn : Addr12
  deriving DecidableEq, Repr

/-- The 34 instructions of R65, in the table's order. Operands are the fields the row's format uses (R62);
every operand value names an admissible operand (R20, R63), so no term of this type is ill-formed. -/
inductive Instr where
  /-- 00E0 `CLS` (R140). -/
  | cls
  /-- 00EE `RET` (R97). -/
  | ret
  /-- 1nnn `JP nnn` (R98). -/
  | jp (nnn : Addr12)
  /-- 2nnn `CALL nnn` (R100). -/
  | call (nnn : Addr12)
  /-- 3xkk `SE Vx, kk` (R101). -/
  | seVxKk (x : RegIx) (kk : Byte)
  /-- 4xkk `SNE Vx, kk` (R102). -/
  | sneVxKk (x : RegIx) (kk : Byte)
  /-- 5xy0 `SE Vx, Vy` (R103). -/
  | seVxVy (x y : RegIx)
  /-- 6xkk `LD Vx, kk` (R110). -/
  | ldVxKk (x : RegIx) (kk : Byte)
  /-- 7xkk `ADD Vx, kk` (R111). -/
  | addVxKk (x : RegIx) (kk : Byte)
  /-- 8xy0 `LD Vx, Vy` (R112). -/
  | ldVxVy (x y : RegIx)
  /-- 8xy1 `OR Vx, Vy` (R113). -/
  | orVxVy (x y : RegIx)
  /-- 8xy2 `AND Vx, Vy` (R114). -/
  | andVxVy (x y : RegIx)
  /-- 8xy3 `XOR Vx, Vy` (R115). -/
  | xorVxVy (x y : RegIx)
  /-- 8xy4 `ADD Vx, Vy` (R116). -/
  | addVxVy (x y : RegIx)
  /-- 8xy5 `SUB Vx, Vy` (R117). -/
  | subVxVy (x y : RegIx)
  /-- 8xy6 `SHR Vx`; `y` is decoded and ignored (R118). -/
  | shrVx (x y : RegIx)
  /-- 8xy7 `SUBN Vx, Vy` (R119). -/
  | subnVxVy (x y : RegIx)
  /-- 8xyE `SHL Vx`; `y` is decoded and ignored (R120). -/
  | shlVx (x y : RegIx)
  /-- 9xy0 `SNE Vx, Vy` (R104). -/
  | sneVxVy (x y : RegIx)
  /-- Annn `LD I, nnn` (R130). -/
  | ldINnn (nnn : Addr12)
  /-- Bnnn `JP V0, nnn` (R105). -/
  | jpV0Nnn (nnn : Addr12)
  /-- Cxkk `RND Vx, kk` (R121). -/
  | rndVxKk (x : RegIx) (kk : Byte)
  /-- Dxyn `DRW Vx, Vy, n` (R141). -/
  | drwVxVyN (x y : RegIx) (n : Nibble)
  /-- Ex9E `SKP Vx` (R150). -/
  | skpVx (x : RegIx)
  /-- ExA1 `SKNP Vx` (R151). -/
  | sknpVx (x : RegIx)
  /-- Fx07 `LD Vx, DT` (R155). -/
  | ldVxDt (x : RegIx)
  /-- Fx0A `LD Vx, K` (R153). -/
  | ldVxK (x : RegIx)
  /-- Fx15 `LD DT, Vx` (R156). -/
  | ldDtVx (x : RegIx)
  /-- Fx18 `LD ST, Vx` (R157). -/
  | ldStVx (x : RegIx)
  /-- Fx1E `ADD I, Vx` (R131). -/
  | addIVx (x : RegIx)
  /-- Fx29 `LD F, Vx` (R132). -/
  | ldFVx (x : RegIx)
  /-- Fx33 `LD B, Vx` (R133). -/
  | ldBVx (x : RegIx)
  /-- Fx55 `LD [I], Vx` (R134). -/
  | ldMemVx (x : RegIx)
  /-- Fx65 `LD Vx, [I]` (R135). -/
  | ldVxMem (x : RegIx)
  deriving DecidableEq, Repr

end Sys2Proof
end

