-- ==== Sys2Proof/WellFormed.lean ====
section
/-! DEFINITION. What makes a piece of syntax well-formed: the overlap of an instruction word's fields (spec/30_encoding.md R61) and the length of a program (spec/70_reset_and_hazards.md R201). `Instr` needs no check: its operand types hold exactly the operands the formats of R62 admit. -/

namespace Sys2Proof

/-- R61, first overlap: `kk = y ++ n`. -/
def Fields.kkAgrees (f : Fields) : Bool := f.kk == f.y ++ f.n

/-- R61, second overlap: `nnn = x ++ y ++ n = x ++ kk`. -/
def Fields.nnnAgrees (f : Fields) : Bool := f.nnn == f.x ++ f.kk

/-- Six fields are well-formed when they can have been cut from one word (R61). -/
def Fields.wellFormed (f : Fields) : Bool := f.kkAgrees && f.nnnAgrees

/-- What `reset_load` answers instead of a machine (R181, R201). -/
inductive LoadError where
  /-- The program has no byte. -/
  | emptyProgram
  /-- The program has more than `PROG_MAX` bytes (D18). -/
  | programTooLarge
  deriving DecidableEq, Repr

/-- R201: why `reset_load` rejects a program, if it does. No other validation is done. -/
def loadError? (program : List Byte) : Option LoadError :=
  if program.length = 0 then some .emptyProgram
  else if program.length > Config.progMax then some .programTooLarge
  else none

/-- A program that `reset_load` accepts: 1 to 3584 bytes (R201, R205). -/
def programWellFormed (program : List Byte) : Bool := (loadError? program).isNone

end Sys2Proof
end

