-- ==== Sys2Proof/Decode.lean ====
section
/-! DEFINITION. The decoder, total on any bytes, and the encoder (spec/30_encoding.md R60 to R66, spec/20_memory.md R44). -/

namespace Sys2Proof

/-- The instruction word of two bytes, the one at the lower address first: `hi ++ lo` (R44). -/
def wordOfBytes (hi lo : Byte) : Word := hi ++ lo

/-- The bytes of an instruction word in the order memory holds them (R44). -/
def bytesOfWord (w : Word) : List Byte := [w.extractLsb' 8 8, w.extractLsb' 0 8]

/-- R61: the six fields, cut from every word. -/
def fieldsOf (ir : Word) : Fields where
  op  := ir.extractLsb' 12 4
  x   := ir.extractLsb' 8 4
  y   := ir.extractLsb' 4 4
  kk  := ir.extractLsb' 0 8
  n   := ir.extractLsb' 0 4
  nnn := ir.extractLsb' 0 12

/-- Family 0: only the whole words 0x00E0 and 0x00EE (R64, R65, D8). -/
def decodeFamily0 (f : Fields) : Option Instr :=
  if f.nnn = 0x0E0#12 then some .cls
  else if f.nnn = 0x0EE#12 then some .ret
  else none

/-- Family 5: `n = 0` (R65). -/
def decodeFamily5 (f : Fields) : Option Instr :=
  if f.n = 0x0#4 then some (.seVxVy f.x f.y) else none

/-- Family 8: `n` in 0 to 7 or 0xE (R65). -/
def decodeFamily8 (f : Fields) : Option Instr :=
  if f.n = 0x0#4 then some (.ldVxVy f.x f.y)
  else if f.n = 0x1#4 then some (.orVxVy f.x f.y)
  else if f.n = 0x2#4 then some (.andVxVy f.x f.y)
  else if f.n = 0x3#4 then some (.xorVxVy f.x f.y)
  else if f.n = 0x4#4 then some (.addVxVy f.x f.y)
  else if f.n = 0x5#4 then some (.subVxVy f.x f.y)
  else if f.n = 0x6#4 then some (.shrVx f.x f.y)
  else if f.n = 0x7#4 then some (.subnVxVy f.x f.y)
  else if f.n = 0xE#4 then some (.shlVx f.x f.y)
  else none

/-- Family 9: `n = 0` (R65). -/
def decodeFamily9 (f : Fields) : Option Instr :=
  if f.n = 0x0#4 then some (.sneVxVy f.x f.y) else none

/-- Family E: `kk` is 0x9E or 0xA1 (R65). -/
def decodeFamilyE (f : Fields) : Option Instr :=
  if f.kk = 0x9E#8 then some (.skpVx f.x)
  else if f.kk = 0xA1#8 then some (.sknpVx f.x)
  else none

/-- Family F: the nine sub-opcodes `kk` of R65. -/
def decodeFamilyF (f : Fields) : Option Instr :=
  if f.kk = 0x07#8 then some (.ldVxDt f.x)
  else if f.kk = 0x0A#8 then some (.ldVxK f.x)
  else if f.kk = 0x15#8 then some (.ldDtVx f.x)
  else if f.kk = 0x18#8 then some (.ldStVx f.x)
  else if f.kk = 0x1E#8 then some (.addIVx f.x)
  else if f.kk = 0x29#8 then some (.ldFVx f.x)
  else if f.kk = 0x33#8 then some (.ldBVx f.x)
  else if f.kk = 0x55#8 then some (.ldMemVx f.x)
  else if f.kk = 0x65#8 then some (.ldVxMem f.x)
  else none

/-- The row of R65 that the fields of a word select; `none` for an unrecognised word (R64, R66). -/
def decodeFields (f : Fields) : Option Instr :=
  if f.op = 0x0#4 then decodeFamily0 f
  else if f.op = 0x1#4 then some (.jp f.nnn)
  else if f.op = 0x2#4 then some (.call f.nnn)
  else if f.op = 0x3#4 then some (.seVxKk f.x f.kk)
  else if f.op = 0x4#4 then some (.sneVxKk f.x f.kk)
  else if f.op = 0x5#4 then decodeFamily5 f
  else if f.op = 0x6#4 then some (.ldVxKk f.x f.kk)
  else if f.op = 0x7#4 then some (.addVxKk f.x f.kk)
  else if f.op = 0x8#4 then decodeFamily8 f
  else if f.op = 0x9#4 then decodeFamily9 f
  else if f.op = 0xA#4 then some (.ldINnn f.nnn)
  else if f.op = 0xB#4 then some (.jpV0Nnn f.nnn)
  else if f.op = 0xC#4 then some (.rndVxKk f.x f.kk)
  else if f.op = 0xD#4 then some (.drwVxVyN f.x f.y f.n)
  else if f.op = 0xE#4 then decodeFamilyE f
  else decodeFamilyF f

/-- The instruction of a word, `none` for an unrecognised word (R66). Decoding cannot fail otherwise (R83). -/
def decodeWord (ir : Word) : Option Instr := decodeFields (fieldsOf ir)

/-- What the decoder reads from a list of bytes. -/
inductive Decoded where
  /-- An instruction, and the bytes after it. -/
  | instr (i : Instr) (rest : List Byte)
  /-- A word that matches no row of R65 (R66), and the bytes after it; its behaviour is R85's. -/
  | unrecognised (ir : Word) (rest : List Byte)
  /-- Fewer than two bytes: no instruction word. -/
  | truncated
  deriving DecidableEq, Repr

/-- The decoder on any bytes: two bytes, high byte first (R60, R44). -/
def decode : List Byte → Decoded
  | hi :: lo :: rest =>
    match decodeWord (wordOfBytes hi lo) with
    | some i => .instr i rest
    | none => .unrecognised (wordOfBytes hi lo) rest
  | _ => .truncated

/-- Format NNN (R62): `op nnn`. -/
def encodeNNN (op : Nibble) (nnn : Addr12) : Word := op ++ nnn

/-- Format XKK (R62): `op x kk`. -/
def encodeXKK (op : Nibble) (x : RegIx) (kk : Byte) : Word := op ++ (x ++ kk : BitVec 12)

/-- Formats XY and XYN (R62): `op x y n`. -/
def encodeXYN (op : Nibble) (x y : RegIx) (n : Nibble) : Word := op ++ (x ++ (y ++ n : BitVec 8) : BitVec 12)

/-- The word of an instruction, from the patterns of R65. -/
def encode : Instr → Word
  | .cls => 0x00E0#16
  | .ret => 0x00EE#16
  | .jp nnn => encodeNNN 0x1#4 nnn
  | .call nnn => encodeNNN 0x2#4 nnn
  | .seVxKk x kk => encodeXKK 0x3#4 x kk
  | .sneVxKk x kk => encodeXKK 0x4#4 x kk
  | .seVxVy x y => encodeXYN 0x5#4 x y 0x0#4
  | .ldVxKk x kk => encodeXKK 0x6#4 x kk
  | .addVxKk x kk => encodeXKK 0x7#4 x kk
  | .ldVxVy x y => encodeXYN 0x8#4 x y 0x0#4
  | .orVxVy x y => encodeXYN 0x8#4 x y 0x1#4
  | .andVxVy x y => encodeXYN 0x8#4 x y 0x2#4
  | .xorVxVy x y => encodeXYN 0x8#4 x y 0x3#4
  | .addVxVy x y => encodeXYN 0x8#4 x y 0x4#4
  | .subVxVy x y => encodeXYN 0x8#4 x y 0x5#4
  | .shrVx x y => encodeXYN 0x8#4 x y 0x6#4
  | .subnVxVy x y => encodeXYN 0x8#4 x y 0x7#4
  | .shlVx x y => encodeXYN 0x8#4 x y 0xE#4
  | .sneVxVy x y => encodeXYN 0x9#4 x y 0x0#4
  | .ldINnn nnn => encodeNNN 0xA#4 nnn
  | .jpV0Nnn nnn => encodeNNN 0xB#4 nnn
  | .rndVxKk x kk => encodeXKK 0xC#4 x kk
  | .drwVxVyN x y n => encodeXYN 0xD#4 x y n
  | .skpVx x => encodeXKK 0xE#4 x 0x9E#8
  | .sknpVx x => encodeXKK 0xE#4 x 0xA1#8
  | .ldVxDt x => encodeXKK 0xF#4 x 0x07#8
  | .ldVxK x => encodeXKK 0xF#4 x 0x0A#8
  | .ldDtVx x => encodeXKK 0xF#4 x 0x15#8
  | .ldStVx x => encodeXKK 0xF#4 x 0x18#8
  | .addIVx x => encodeXKK 0xF#4 x 0x1E#8
  | .ldFVx x => encodeXKK 0xF#4 x 0x29#8
  | .ldBVx x => encodeXKK 0xF#4 x 0x33#8
  | .ldMemVx x => encodeXKK 0xF#4 x 0x55#8
  | .ldVxMem x => encodeXKK 0xF#4 x 0x65#8

/-- The bytes of an instruction as memory holds them (R44, R69). -/
def encodeBytes (i : Instr) : List Byte := bytesOfWord (encode i)

/-- The 16-bit word that the low `nbits` bits of `w` give, the bits above them 0 (every instruction is one word, R60). -/
def tableWord (nbits w : Nat) : Word := BitVec.ofNat 16 (w % 2 ^ nbits)

/-- The instruction the decoder reads from the bytes of the word `w`, high byte at the lower address (R44). -/
def decodeTableWord (nbits w : Nat) : Option Instr :=
  match decode (bytesOfWord (tableWord nbits w)) with
  | .instr i _ => some i
  | .unrecognised _ _ => none
  | .truncated => none

end Sys2Proof
end

