-- ==== Sys2Proof/Machine/State.lean ====
section
/-! DEFINITION. The state of the core as plain data (spec/10_state.md R20 to R33), the reasons a step can stop, and the state after reset. -/

namespace Sys2Proof.Machine

/-- The four synchronous faults of spec/60_exceptions.md R171, with what each records. An instruction that
raises one TAKES it (R175): the next state is `Faulted`. The outcome `fault` is answered by `step` alone, in the
run state `Faulted` (R88, R177). -/
inductive Fault where
  /-- Code 1: an access at or beyond 0x1000; raised by the fetch, Dxyn, Fx33, Fx55, Fx65; records the lowest
  out-of-range address of the access. Safe: the spec's own fault. -/
  | memFault (addr : Word)
  /-- Code 2: 00EE with an empty stack; records nothing. Safe: the spec's own fault. -/
  | stackUnderflow
  /-- Code 3: 2nnn with a full stack; records the value that could not be pushed. Safe: the spec's own fault. -/
  | stackOverflow (value : Word)
  /-- Code 4: an unrecognised word in strict mode; records the word. Safe: the spec's own fault. -/
  | illegalInstruction (ir : Word)
  deriving DecidableEq, Repr

/-- Why an instruction has no meaning. -/
inductive Refusal where
  /-- Raised by `exec` alone, for an instruction not modelled yet. Safe: the run stops. No arm raises it: every
  instruction of the table has its meaning. -/
  | notModelled (mnemonic : String)
  deriving DecidableEq, Repr

/-- The run state (R28). -/
inductive RunState where
  /-- The next step fetches and executes an instruction. -/
  | running
  /-- Parked in Fx0A, whose `x` field was latched. -/
  | awaitingKey (wx : RegIx)
  /-- A step has faulted, with this code and information. -/
  | faulted (f : Fault)
  deriving DecidableEq, Repr

/-- What the host presents at one step of the model: the arguments of `step(keys, rnd)` (R9), and the key of a
`key_press` event that arrives in place of an idle step (R154; log entries 3 and 4). -/
structure HostInput where
  keys  : BitVec 16
  rnd   : Byte
  press : Option Nibble
  deriving DecidableEq, Repr

/-- Main memory (R29): the bytes that differ from the reset image, by rising address (`Memory.wf`, Ops.lean). -/
abbrev Memory := List Host.Cell

/-- The display buffer (R25): `disp[r][c]`, 32 rows of 64 pixels. -/
abbrev Display := Vector (Vector Bool 64) 32

/-- The complete state of the core (head of spec/10_state.md), the parameters fixed at `reset_load` (R204), and
the two fields of the model's own that carry the host's inputs to the step (log entry 3). -/
structure State where
  /-- The general registers V0 to VF (R20, R21). -/
  v : Vector Byte 16
  /-- The index register (R22). -/
  i : Word
  /-- The program counter (R23). -/
  pc : Word
  /-- The call stack, top entry first (R24). -/
  stack : List Word
  /-- Main memory (R29, R41). -/
  mem : Memory
  /-- The display buffer (R25). -/
  disp : Display
  /-- The delay timer (R26). -/
  dt : Byte
  /-- The sound timer (R27). -/
  st : Byte
  /-- The run state (R28). -/
  run : RunState
  /-- `STACK_DEPTH` and `STRICT_DECODE` (R4, R204; log entry 2). -/
  params : Config.Params
  /-- The model's own: the host inputs of the coming steps, the first one's first; past its end every input is a
  free value (log entry 3). -/
  inputs : List HostInput
  /-- The model's own: how many inputs have been consumed, the index of the free values (log entry 3). -/
  draws : Nat
  deriving DecidableEq, Repr

/-- `disp` with every pixel off (R25, R140). -/
def blankDisplay : Display := Vector.replicate 32 (Vector.replicate 64 false)

/-- The machine right after reset (R33, R204), with the default parameters and no program byte other than 0x00. -/
def State.reset : State where
  v := Vector.replicate 16 0x00#8
  i := 0x0000#16
  pc := 0x0200#16
  stack := []
  mem := []
  disp := blankDisplay
  dt := 0x00#8
  st := 0x00#8
  run := .running
  params := Config.defaultParams
  inputs := []
  draws := 0

/-- What one step, or one instruction, answers. -/
abbrev StepOutcome := Host.Outcome State Fault Refusal

end Sys2Proof.Machine
end

