-- ==== Sys2Proof/Machine/Ops.lean ====
section
/-! DEFINITION. The named operations over memory, registers, stack, timers and run state that every meaning is written with: the range check, completing an instruction, taking a fault, fetching, `reset_load`. -/

namespace Sys2Proof.Machine

/-! ## Memory cells (spec/20_memory.md R41 to R49) -/

/-- What an address that memory does not list reads as: the reset image without a program (R42, R202), that is
the default font at 0x050 to 0x09F and 0x00 everywhere else (D17, D24; log entries 5 and 6). -/
def unlistedByte (a : Nat) : Byte :=
  if Config.fontBase ≤ a then Config.defaultFont.toList.getD (a - Config.fontBase) 0x00#8 else 0x00#8

/-- The byte of one cell (R41, R49). -/
def Memory.read : Memory → Nat → Byte
  | [], a => unlistedByte a
  | (a', b') :: rest, a => if a = a' then b' else Memory.read rest a

/-- A cell as memory lists it: nothing when it holds what an unlisted address reads as. -/
def cellFor (a : Nat) (b : Byte) : Memory := if b = unlistedByte a then [] else [(a, b)]

/-- Writes the byte of one cell and no other (R49), keeping the canonical form. -/
def Memory.write : Memory → Nat → Byte → Memory
  | [], a, b => cellFor a b
  | (a', b') :: rest, a, b =>
    if a < a' then cellFor a b ++ (a', b') :: rest
    else if a = a' then cellFor a b ++ rest
    else (a', b') :: Memory.write rest a b

/-- The bytes of `n` consecutive cells, lowest address first (R6). -/
def Memory.readBytes (m : Memory) (addr n : Nat) : List Byte := (List.range n).map fun k => m.read (addr + k)

/-- Writes bytes to consecutive cells, lowest address first (R6). -/
def Memory.writeBytes : Memory → Nat → List Byte → Memory
  | m, _, [] => m
  | m, addr, b :: bs => Memory.writeBytes (m.write addr b) (addr + 1) bs

/-- The canonical form: addresses in 0x000 to 0xFFF (R41), strictly rising, none listed with what it reads as unlisted. -/
def Memory.wf : Memory → Bool
  | [] => true
  | (a, b) :: rest =>
    decide (a < Config.memSize) && b != unlistedByte a && (rest.head?.all fun c => decide (a < c.1)) && Memory.wf rest

/-! ## The range check (R47) -/

/-- An access of `n` bytes at `addr` touches an address above 0xFFF: `n >= 1` and `addr + n - 1 > 0xFFF`, in
unbounded naturals (R47). -/
def outOfRange (addr n : Nat) : Bool := decide (1 ≤ n ∧ addr + n - 1 > 0xFFF)

/-- The fault of such an access: the lowest out-of-range address it would touch, `max(addr, 0x1000)` (R47, R171). -/
def rangeFault (addr : Nat) : Fault := .memFault (BitVec.ofNat 16 (max addr 0x1000))

/-- `MemRead(addr, n)` (R6, R47): the whole access is checked before any byte is read. -/
def State.memRead (s : State) (addr n : Nat) : Except Fault (List Byte) :=
  if outOfRange addr n then .error (rangeFault addr) else .ok (s.mem.readBytes addr n)

/-- `MemWrite(addr, n, bytes)` with `n` the number of bytes (R6, R47): the whole access is checked before any
byte is written. -/
def State.memWrite (s : State) (addr : Nat) (bytes : List Byte) : Except Fault State :=
  if outOfRange addr bytes.length then .error (rangeFault addr)
  else .ok { s with mem := s.mem.writeBytes addr bytes }

/-! ## Registers and pixels (R20, R25) -/

/-- `V[x]`. -/
def State.reg (s : State) (x : RegIx) : Byte := s.v[x.toNat]'x.isLt

/-- `V[x] <- b`. -/
def State.setReg (s : State) (x : RegIx) (b : Byte) : State := { s with v := s.v.set x.toNat b x.isLt }

/-- `disp[r][c]`. -/
def State.pixel (s : State) (r : Fin 32) (c : Fin 64) : Bool := s.disp[r][c]

/-! ## Completing an instruction (spec/40_step_cycle.md R82, R86, R87) -/

/-- `npc` before the instruction replaces it: the address of the next instruction (R82). -/
def State.npc (s : State) : Word := s.pc + 2#16

/-- One timer counts down by 1 and stays at 0 (R87, R182). -/
def countDown (t : Byte) : Byte := if t = 0#8 then 0#8 else t - 1#8

/-- `Tick()` (R87). -/
def State.tick (s : State) : State := { s with dt := countDown s.dt, st := countDown s.st }

/-- Completion: `pc <- npc`, then the tick (R86, R87). -/
def State.complete (s : State) (npc : Word) : State := { s with pc := npc }.tick

/-! ## Taking a fault (spec/60_exceptions.md R175), and the absence of a return (R177)

The core has no instruction and no operation that returns from a fault: `Faulted` is left by `reset_load` alone. -/

/-- Fault entry: `run <- Faulted(code, info)` and nothing else; `pc` stays at the faulting instruction, no tick. -/
def State.raise (s : State) (f : Fault) : State := { s with run := .faulted f }

/-- The outcome of an instruction whose writes are kept when it raises nothing, and all discarded when it raises
a fault (R89, R175). -/
def State.orRaise (s : State) : Except Fault State → State
  | .ok t => t
  | .error f => s.raise f

/-! ## The stack unit (spec/41_control_flow.md R95, R96) -/

/-- The stack holds `STACK_DEPTH` entries (R95); never, when the depth is unbounded. -/
def State.stackFull (s : State) : Bool :=
  match s.params.stackDepth with
  | some depth => decide (depth ≤ s.stack.length)
  | none => false

/-- `Push(v)` (R95). -/
def State.push (s : State) (w : Word) : Except Fault State :=
  if s.stackFull then .error (.stackOverflow w) else .ok { s with stack := w :: s.stack }

/-- `Pop()` (R96). -/
def State.pop (s : State) : Except Fault (Word × State) :=
  match s.stack with
  | [] => .error .stackUnderflow
  | w :: rest => .ok (w, { s with stack := rest })

/-! ## The host's inputs of a step (spec/00_scope.md R9, R10; log entry 3) -/

/-- The input of the coming step: the one given, or else free values. -/
def State.input (s : State) : HostInput :=
  match s.inputs with
  | given :: _ => given
  | [] => { keys := Config.keysAt s.draws, rnd := Config.rndAt s.draws, press := Config.pressAt s.draws }

/-- The input has been consumed. -/
def State.consumeInput (s : State) : State := { s with inputs := s.inputs.tail, draws := s.draws + 1 }

/-! ## Fetch and decode (R81, R83) -/

/-- What the fetch and the decoder give a running step. -/
inductive Fetched where
  /-- The fetch faults. -/
  | fault (f : Fault)
  /-- The word matches no row of R65. -/
  | unrecognised (ir : Word)
  /-- The word is an instruction. -/
  | instr (i : Instr)
  deriving DecidableEq, Repr

/-- Fetch two bytes at `pc` (R81) and decode them (R83). -/
def State.fetch (s : State) : Fetched :=
  match s.memRead s.pc.toNat 2 with
  | .error f => .fault f
  | .ok bytes =>
    match decode bytes with
    | .instr i _ => .instr i
    | .unrecognised ir _ => .unrecognised ir
    | .truncated => .fault (rangeFault s.pc.toNat)

/-- Stores an instruction word where the next step fetches, and lets that step fetch (`run` is `Running`). -/
def State.placeWord (s : State) (w : Word) : State :=
  { s with mem := s.mem.writeBytes s.pc.toNat (bytesOfWord w), run := .running }

/-! ## `reset_load` (spec/70_reset_and_hazards.md R200 to R204) -/

/-- The memory image of R202: zeros, the font at 0x050, the program at 0x200. -/
def loadImage (font : Config.Font) (program : List Byte) : Memory :=
  (Memory.writeBytes [] Config.fontBase font.toList).writeBytes Config.progBase program

/-- `reset_load(program)` with the parameters it fixes: a load error, or the machine of R202 to R204. -/
def resetLoad (params : Config.Params) (font : Config.Font) (program : List Byte) : Except LoadError State :=
  match loadError? program with
  | some e => .error e
  | none => .ok { State.reset with params := params, mem := loadImage font program }

/-! ## Results (R88) -/

/-- The result of a `step` event. -/
inductive StepResult where
  | ok
  | waiting
  | fault (f : Fault)
  deriving DecidableEq, Repr

/-- The result of a step is a function of the run state it ends in (R88). -/
def State.result (s : State) : StepResult :=
  match s.run with
  | .running => .ok
  | .awaitingKey _ => .waiting
  | .faulted f => .fault f

end Sys2Proof.Machine
end

