-- ==== Sys2Proof/Machine/Operands.lean ====
section
/-! DEFINITION. The operand forms: the skip target, jump targets, the register-indirect address through `I`, glyph addresses, register ranges, decimal digits, key levels. -/

namespace Sys2Proof.Machine

/-- `npc` after a skip instruction: two further when the condition holds (spec/41_control_flow.md R99). -/
def State.skipTarget (s : State) (cond : Bool) : Word := if cond then s.npc + 2#16 else s.npc

/-- The target of Bnnn, `zext_16(nnn) + zext_16(V[0])` (R105). -/
def State.indexedTarget (s : State) (nnn : Addr12) : Word := nnn.toWord + (s.reg 0#4).toWord

/-- The base address of the one memory addressing mode, `EA(0) = I`, a natural number (spec/43_index_memory.md). -/
def State.baseAddr (s : State) : Nat := s.i.toNat

/-- The number of registers that the range V0..Vx names (R134, R135). -/
def rangeCount (x : RegIx) : Nat := x.toNat + 1

/-- The registers V0..Vx, V0 first (R134). -/
def State.regRange (s : State) (x : RegIx) : List Byte := s.v.toList.take (rangeCount x)

/-- `for k: V[first + k] <- b_k` (R135). -/
def loadFrom : Nat → List Byte → Vector Byte 16 → Vector Byte 16
  | _, [], v => v
  | first, b :: bs, v => loadFrom (first + 1) bs (v.setIfInBounds first b)

/-- Loads the registers V0, V1, ... from a list of bytes (R135). -/
def State.setRegRange (s : State) (bytes : List Byte) : State := { s with v := loadFrom 0 bytes s.v }

/-- The address of the glyph of a byte's low nibble, `FONT_BASE + 5 * (b & 0x0F)` (R132). -/
def glyphAddr (b : Byte) : Word := BitVec.ofNat 16 (Config.fontBase + 5 * (b.toNat % 16))

/-- The three decimal digits of a byte: hundreds, tens, ones (R133). -/
def decimalDigits (b : Byte) : List Byte :=
  [BitVec.ofNat 8 (b.toNat / 100), BitVec.ofNat 8 (b.toNat / 10 % 10), BitVec.ofNat 8 (b.toNat % 10)]

/-- `KeyDown(v)` (spec/45_keys_timers.md R152): a number above 15 names no key and is not held (D15). -/
def keyDown (keys : BitVec 16) (b : Byte) : Bool := if b.toNat ≤ 15 then keys.getLsbD b.toNat else false

end Sys2Proof.Machine
end

