-- ==== Sys2Proof/Machine/Control.lean ====
section
/-! DEFINITION. Control transfer and the call stack (spec/41_control_flow.md), and the unrecognised word (spec/40_step_cycle.md R85). -/

namespace Sys2Proof.Machine

/-- 00EE (R97): `pc <- Pop()`. -/
def execRet (s : State) : StepOutcome :=
  .next (s.orRaise (s.pop.map fun popped => popped.2.complete popped.1))

/-- 1nnn (R98). -/
def execJp (nnn : Addr12) (s : State) : StepOutcome := .next (s.complete nnn.toWord)

/-- 2nnn (R100): `Push(npc)`, then `pc <- nnn`. -/
def execCall (nnn : Addr12) (s : State) : StepOutcome :=
  .next (s.orRaise ((s.push s.npc).map fun t => t.complete nnn.toWord))

/-- 3xkk (R101). -/
def execSeVxKk (x : RegIx) (kk : Byte) (s : State) : StepOutcome :=
  .next (s.complete (s.skipTarget (s.reg x == kk)))

/-- 4xkk (R102). -/
def execSneVxKk (x : RegIx) (kk : Byte) (s : State) : StepOutcome :=
  .next (s.complete (s.skipTarget (s.reg x != kk)))

/-- 5xy0 (R103). -/
def execSeVxVy (x y : RegIx) (s : State) : StepOutcome :=
  .next (s.complete (s.skipTarget (s.reg x == s.reg y)))

/-- 9xy0 (R104). -/
def execSneVxVy (x y : RegIx) (s : State) : StepOutcome :=
  .next (s.complete (s.skipTarget (s.reg x != s.reg y)))

/-- Bnnn (R105); the register is always V0. -/
def execJpV0Nnn (nnn : Addr12) (s : State) : StepOutcome := .next (s.complete (s.indexedTarget nnn))

/-- The unrecognised word (R85): a fault in strict mode, otherwise a no-op that completes. -/
def runUnrecognised (ir : Word) (s : State) : StepOutcome :=
  .next (if s.params.strictDecode then s.raise (.illegalInstruction ir) else s.complete s.npc)

end Sys2Proof.Machine
end

