-- ==== Sys2Proof/Machine/Keys.lean ====
section
/-! DEFINITION. The key and timer instructions, the key-wait state and the `key_press` event (spec/45_keys_timers.md). -/

namespace Sys2Proof.Machine

/-- Ex9E (R150): skip if the key numbered Vx is held at this step. -/
def execSkpVx (x : RegIx) (s : State) : StepOutcome :=
  .next (s.complete (s.skipTarget (keyDown s.input.keys (s.reg x))))

/-- ExA1 (R151): skip if the key numbered Vx is not held at this step. -/
def execSknpVx (x : RegIx) (s : State) : StepOutcome :=
  .next (s.complete (s.skipTarget (!keyDown s.input.keys (s.reg x))))

/-- Fx0A (R153): park; nothing else is written, whatever keys are held. -/
def execLdVxK (x : RegIx) (s : State) : StepOutcome := .next { s with run := .awaitingKey x }

/-- `key_press(k)` (R154): completes a parked Fx0A, and is dropped in any other run state. -/
def State.keyPress (s : State) (k : Nibble) : State :=
  match s.run with
  | .awaitingKey wx => { (s.setReg wx k.toByte).complete s.npc with run := .running }
  | .running => s
  | .faulted _ => s

/-- Fx07 (R155): the value before this step's tick. -/
def execLdVxDt (x : RegIx) (s : State) : StepOutcome := .next ((s.setReg x s.dt).complete s.npc)

/-- Fx15 (R156): the tick then decrements the value just written. -/
def execLdDtVx (x : RegIx) (s : State) : StepOutcome := .next ({ s with dt := s.reg x }.complete s.npc)

/-- Fx18 (R157): the tick then decrements the value just written. -/
def execLdStVx (x : RegIx) (s : State) : StepOutcome := .next ({ s with st := s.reg x }.complete s.npc)

end Sys2Proof.Machine
end

