-- ==== Sys2Proof/Machine/Cycle.lean ====
section
/-! DEFINITION. The step cycle around an instruction (spec/40_step_cycle.md R80 to R90): what `step` does in each run state, over any dispatch function. -/

namespace Sys2Proof.Machine

/-- The step has consumed its input (log entry 3). -/
def consumed : StepOutcome → StepOutcome
  | .next t => .next t.consumeInput
  | .fault f => .fault f
  | .refused r => .refused r

/-- A step while parked (R88): nothing, unless its input says that a `key_press` event arrives instead (R154;
log entry 4). -/
def State.parkedStep (s : State) : State :=
  match s.input.press with
  | some k => s.keyPress k
  | none => s

/-- A step while running (R80): fetch, decode, execute; a fetch fault comes first (R176). -/
def State.runningStep (dispatch : Instr → State → StepOutcome) (s : State) : StepOutcome :=
  match s.fetch with
  | .fault f => .next (s.raise f)
  | .unrecognised ir => runUnrecognised ir s
  | .instr i => dispatch i s

/-- The step by run state (R88). In `Faulted` the machine is stopped: the step reports the fault and changes
nothing (R177). -/
def State.cycle (dispatch : Instr → State → StepOutcome) (s : State) : StepOutcome :=
  match s.run with
  | .running => consumed (s.runningStep dispatch)
  | .awaitingKey _ => consumed (.next s.parkedStep)
  | .faulted f => .fault f

end Sys2Proof.Machine
end

