-- ==== Sys2Proof/Machine/Flags.lean ====
section
/-! DEFINITION. The flag computations of spec/10_state.md R21: what VF receives, exactly 0 or 1, and the one operation that writes it. -/

namespace Sys2Proof.Machine

/-- A flag as VF holds it: 1 or 0 in 8 bits (R21). -/
def flagByte (cond : Bool) : Byte := if cond then 1#8 else 0#8

/-- `V[15] <- 1 if cond else 0` (R21). -/
def State.setFlag (s : State) (cond : Bool) : State := s.setReg regVF (flagByte cond)

/-- 8xy4: the unwrapped sum exceeds 255 (R116). -/
def carryOf (a b : Byte) : Bool := decide (a.toNat + b.toNat > 255)

/-- 8xy5: strictly greater (R117, C2). -/
def greaterOf (a b : Byte) : Bool := decide (a.toNat > b.toNat)

/-- 8xy7: less or equal (R119). -/
def atMostOf (a b : Byte) : Bool := decide (a.toNat ≤ b.toNat)

/-- 8xy6: bit 0 (R118). -/
def lowBitOf (a : Byte) : Bool := a.getLsbD 0

/-- 8xyE: bit 7 (R120). -/
def highBitOf (a : Byte) : Bool := a.getLsbD 7

end Sys2Proof.Machine
end

