-- ==== Sys2Proof/Machine/Alu.lean ====
section
/-! DEFINITION. Register loads, arithmetic, logic, shifts and the random byte (spec/42_alu.md). Statements take effect in the order the rule lists them (spec/00_scope.md R7, D9). -/

namespace Sys2Proof.Machine

/-- 6xkk (R110). -/
def execLdVxKk (x : RegIx) (kk : Byte) (s : State) : StepOutcome := .next ((s.setReg x kk).complete s.npc)

/-- 7xkk (R111): no flag. -/
def execAddVxKk (x : RegIx) (kk : Byte) (s : State) : StepOutcome :=
  .next ((s.setReg x (s.reg x + kk)).complete s.npc)

/-- 8xy0 (R112). -/
def execLdVxVy (x y : RegIx) (s : State) : StepOutcome := .next ((s.setReg x (s.reg y)).complete s.npc)

/-- 8xy1 (R113): no flag. -/
def execOrVxVy (x y : RegIx) (s : State) : StepOutcome :=
  .next ((s.setReg x (s.reg x ||| s.reg y)).complete s.npc)

/-- 8xy2 (R114): no flag. -/
def execAndVxVy (x y : RegIx) (s : State) : StepOutcome :=
  .next ((s.setReg x (s.reg x &&& s.reg y)).complete s.npc)

/-- 8xy3 (R115): no flag. -/
def execXorVxVy (x y : RegIx) (s : State) : StepOutcome :=
  .next ((s.setReg x (s.reg x ^^^ s.reg y)).complete s.npc)

/-- 8xy4 (R116): both operands sampled, the result written, then the carry. -/
def execAddVxVy (x y : RegIx) (s : State) : StepOutcome :=
  .next (((s.setReg x (s.reg x + s.reg y)).setFlag (carryOf (s.reg x) (s.reg y))).complete s.npc)

/-- 8xy5 (R117): both operands sampled, the result written, then the flag. -/
def execSubVxVy (x y : RegIx) (s : State) : StepOutcome :=
  .next (((s.setReg x (s.reg x - s.reg y)).setFlag (greaterOf (s.reg x) (s.reg y))).complete s.npc)

/-- `V[x] <- V[x] >> 1`, read as the state stands (R118). -/
def State.shiftRight (s : State) (x : RegIx) : State := s.setReg x (s.reg x >>> 1)

/-- 8xy6 (R118): the flag first, then the shift of what `V[x]` holds then; `y` is ignored. -/
def execShrVx (x _y : RegIx) (s : State) : StepOutcome :=
  .next (((s.setFlag (lowBitOf (s.reg x))).shiftRight x).complete s.npc)

/-- `V[x] <- V[y] - V[x]`, read as the state stands (R119). -/
def State.subtractFrom (s : State) (x y : RegIx) : State := s.setReg x (s.reg y - s.reg x)

/-- 8xy7 (R119): the flag first, then the difference of what the registers hold then. -/
def execSubnVxVy (x y : RegIx) (s : State) : StepOutcome :=
  .next (((s.setFlag (atMostOf (s.reg x) (s.reg y))).subtractFrom x y).complete s.npc)

/-- `V[x] <- V[x] << 1`, read as the state stands (R120). -/
def State.shiftLeft (s : State) (x : RegIx) : State := s.setReg x (s.reg x <<< 1)

/-- 8xyE (R120): the flag first, then the shift of what `V[x]` holds then; `y` is ignored. -/
def execShlVx (x _y : RegIx) (s : State) : StepOutcome :=
  .next (((s.setFlag (highBitOf (s.reg x))).shiftLeft x).complete s.npc)

/-- Cxkk (R121): the random byte of this step, ANDed with `kk`. -/
def execRndVxKk (x : RegIx) (kk : Byte) (s : State) : StepOutcome :=
  .next ((s.setReg x (s.input.rnd &&& kk)).complete s.npc)

end Sys2Proof.Machine
end

