-- ==== Sys2Proof/Machine/Display.lean ====
section
/-! DEFINITION. The display instructions and the sprite blitter (spec/44_display.md). -/

namespace Sys2Proof.Machine

/-- What the blitter carries: the display so far, and whether a drawn pixel was already on. -/
structure Blit where
  disp      : Display
  collision : Bool
  deriving DecidableEq, Repr

/-- One 1 bit of a sprite at row `r` and column `c` (the body of R141's inner loop): skipped outside the grid,
otherwise a lit pixel is a collision and the pixel is flipped. -/
def blitPixel (r c : Nat) (acc : Blit) : Blit :=
  if h : r < 32 ∧ c < 64 then
    { disp := acc.disp.set r (acc.disp[r].set c (!acc.disp[r][c]))
      collision := acc.collision || acc.disp[r][c] }
  else acc

/-- One row of a sprite: bit `7 - j` of the byte goes to column `x0 + j`, `j` from 0 to 7 (R141). -/
def blitRow (r x0 : Nat) (b : Byte) (acc : Blit) : Blit :=
  (List.range 8).foldl (fun acc j => if b.getLsbD (7 - j) then blitPixel r (x0 + j) acc else acc) acc

/-- The rows of a sprite, the top row first, each one row further down (R141). -/
def blitRows : Nat → Nat → List Byte → Blit → Blit
  | _, _, [], acc => acc
  | r, x0, b :: bs, acc => blitRows (r + 1) x0 bs (blitRow r x0 b acc)

/-- `x0 = V[x] mod 64` (R141). -/
def State.spriteCol (s : State) (x : RegIx) : Nat := (s.reg x).toNat % 64

/-- `y0 = V[y] mod 32` (R141). -/
def State.spriteRow (s : State) (y : RegIx) : Nat := (s.reg y).toNat % 32

/-- Draws the rows of a sprite at (Vx, Vy) and sets VF to the collision (R141). -/
def State.draw (s : State) (x y : RegIx) (rows : List Byte) : State :=
  let drawn := blitRows (s.spriteRow y) (s.spriteCol x) rows { disp := s.disp, collision := false }
  { s with disp := drawn.disp }.setFlag drawn.collision

/-- 00E0 (R140). -/
def execCls (s : State) : StepOutcome := .next ({ s with disp := blankDisplay }.complete s.npc)

/-- Dxyn (R141): the `n` sprite bytes at `I` are range-checked and read as a whole, then drawn. -/
def execDrwVxVyN (x y : RegIx) (n : Nibble) (s : State) : StepOutcome :=
  .next (s.orRaise ((s.memRead s.baseAddr n.toNat).map fun rows => (s.draw x y rows).complete s.npc))

end Sys2Proof.Machine
end

