-- ==== Sys2Proof/Machine/Index.lean ====
section
/-! DEFINITION. The index register and the memory transfers (spec/43_index_memory.md). No transfer changes `I` (R136). -/

namespace Sys2Proof.Machine

/-- Annn (R130). -/
def execLdINnn (nnn : Addr12) (s : State) : StepOutcome := .next ({ s with i := nnn.toWord }.complete s.npc)

/-- Fx1E (R131): modulo 65536, no flag. -/
def execAddIVx (x : RegIx) (s : State) : StepOutcome :=
  .next ({ s with i := s.i + (s.reg x).toWord }.complete s.npc)

/-- Fx29 (R132): an address only, memory is not read. -/
def execLdFVx (x : RegIx) (s : State) : StepOutcome :=
  .next ({ s with i := glyphAddr (s.reg x) }.complete s.npc)

/-- Fx33 (R133). -/
def execLdBVx (x : RegIx) (s : State) : StepOutcome :=
  .next (s.orRaise ((s.memWrite s.baseAddr (decimalDigits (s.reg x))).map fun t => t.complete s.npc))

/-- Fx55 (R134). -/
def execLdMemVx (x : RegIx) (s : State) : StepOutcome :=
  .next (s.orRaise ((s.memWrite s.baseAddr (s.regRange x)).map fun t => t.complete s.npc))

/-- Fx65 (R135). -/
def execLdVxMem (x : RegIx) (s : State) : StepOutcome :=
  .next (s.orRaise ((s.memRead s.baseAddr (rangeCount x)).map fun bytes => (s.setRegRange bytes).complete s.npc))

end Sys2Proof.Machine
end

