-- ==== Sys2Proof/Machine/Step.lean ====
section
/-! DEFINITION. One step of the machine (spec/40_step_cycle.md R80, R90), and the placing of an instruction where it fetches. -/

namespace Sys2Proof.Machine

/-- One step of the core. -/
def step (s : State) : Host.Outcome State Fault Refusal := s.cycle exec

/-- `s` with the instruction whose bits are `w` stored at `pc`, high byte first, and the core running. It stands
for the load of a program by `reset_load` (R200; log entry 8). -/
def State.withFetchWord (s : State) (nbits w : Nat) : State := s.placeWord (tableWord nbits w)

end Sys2Proof.Machine
end

