-- ==== Sys2Proof/Machine/Events.lean ====
section
/-! DEFINITION. The three events of the host with their arguments written out (spec/00_scope.md R9), over the same step. -/

namespace Sys2Proof.Machine

/-- The events of R9. `resetLoad` carries the parameters it fixes (R204). -/
inductive HostEvent where
  | resetLoad (params : Config.Params) (font : Config.Font) (program : List Byte)
  | step (keys : BitVec 16) (rnd : Byte)
  | keyPress (k : Nibble)
  deriving DecidableEq, Repr

/-- What an event leaves: the new state with a step's result (R88), a pressed or loaded machine, a load error
after which no state is defined (R201), or an instruction without a meaning (no instruction of the table). -/
inductive EventOutcome where
  | stepped (result : StepResult) (s : State)
  | pressed (s : State)
  | loaded (s : State)
  | loadError (e : LoadError)
  | notExecuted (r : Refusal)
  deriving DecidableEq, Repr

/-- `step(keys, rnd)` (R88, R90): the arguments are the input of this one step, in which no key press arrives. -/
def State.stepEvent (s : State) (keys : BitVec 16) (rnd : Byte) : EventOutcome :=
  match Sys2Proof.Machine.step { s with inputs := { keys := keys, rnd := rnd, press := none } :: s.inputs } with
  | .next t => .stepped t.result t
  | .fault f => .stepped (.fault f) s
  | .refused r => .notExecuted r

/-- `reset_load(program)` (R200, R201): all state of the core is discarded; the model's own input fields go on. -/
def State.loadEvent (s : State) (params : Config.Params) (font : Config.Font) (program : List Byte) : EventOutcome :=
  match resetLoad params font program with
  | .ok t => .loaded { t with inputs := s.inputs, draws := s.draws }
  | .error e => .loadError e

/-- One event. -/
def State.hostEvent (s : State) : HostEvent → EventOutcome
  | .resetLoad params font program => s.loadEvent params font program
  | .step keys rnd => s.stepEvent keys rnd
  | .keyPress k => .pressed (s.keyPress k)

end Sys2Proof.Machine
end

