-- ==== Sys2Proof/Safety.lean ====
section
/-! DEFINITION. The terms claims are stated in: what a completed instruction may have changed (spec/10_state.md R34), which fault each instruction raises (spec/60_exceptions.md R171, R172), the invariant of a safe run, and the spec's own tables written out a second time, apart from the model's definitions. -/

namespace Sys2Proof.Safety

open Sys2Proof.Machine

/-! ## The opcode map of R65 and the sets of R66 -/

/-- The columns mask and match of the row of R65 that an instruction belongs to. -/
def rowOf : Instr → Word × Word
  | .cls => (0xFFFF#16, 0x00E0#16)
  | .ret => (0xFFFF#16, 0x00EE#16)
  | .jp _ => (0xF000#16, 0x1000#16)
  | .call _ => (0xF000#16, 0x2000#16)
  | .seVxKk _ _ => (0xF000#16, 0x3000#16)
  | .sneVxKk _ _ => (0xF000#16, 0x4000#16)
  | .seVxVy _ _ => (0xF00F#16, 0x5000#16)
  | .ldVxKk _ _ => (0xF000#16, 0x6000#16)
  | .addVxKk _ _ => (0xF000#16, 0x7000#16)
  | .ldVxVy _ _ => (0xF00F#16, 0x8000#16)
  | .orVxVy _ _ => (0xF00F#16, 0x8001#16)
  | .andVxVy _ _ => (0xF00F#16, 0x8002#16)
  | .xorVxVy _ _ => (0xF00F#16, 0x8003#16)
  | .addVxVy _ _ => (0xF00F#16, 0x8004#16)
  | .subVxVy _ _ => (0xF00F#16, 0x8005#16)
  | .shrVx _ _ => (0xF00F#16, 0x8006#16)
  | .subnVxVy _ _ => (0xF00F#16, 0x8007#16)
  | .shlVx _ _ => (0xF00F#16, 0x800E#16)
  | .sneVxVy _ _ => (0xF00F#16, 0x9000#16)
  | .ldINnn _ => (0xF000#16, 0xA000#16)
  | .jpV0Nnn _ => (0xF000#16, 0xB000#16)
  | .rndVxKk _ _ => (0xF000#16, 0xC000#16)
  | .drwVxVyN _ _ _ => (0xF000#16, 0xD000#16)
  | .skpVx _ => (0xF0FF#16, 0xE09E#16)
  | .sknpVx _ => (0xF0FF#16, 0xE0A1#16)
  | .ldVxDt _ => (0xF0FF#16, 0xF007#16)
  | .ldVxK _ => (0xF0FF#16, 0xF00A#16)
  | .ldDtVx _ => (0xF0FF#16, 0xF015#16)
  | .ldStVx _ => (0xF0FF#16, 0xF018#16)
  | .addIVx _ => (0xF0FF#16, 0xF01E#16)
  | .ldFVx _ => (0xF0FF#16, 0xF029#16)
  | .ldBVx _ => (0xF0FF#16, 0xF033#16)
  | .ldMemVx _ => (0xF0FF#16, 0xF055#16)
  | .ldVxMem _ => (0xF0FF#16, 0xF065#16)

/-- The word is in one of the six sets of R66. -/
def Unrecognised (w : Word) : Prop :=
  (w.toNat / 4096 = 0x0 ∧ w.toNat ≠ 0x00E0 ∧ w.toNat ≠ 0x00EE) ∨
  (w.toNat / 4096 = 0x5 ∧ w.toNat % 16 ≠ 0) ∨
  (w.toNat / 4096 = 0x8 ∧ w.toNat % 16 ∈ [0x8, 0x9, 0xA, 0xB, 0xC, 0xD, 0xF]) ∨
  (w.toNat / 4096 = 0x9 ∧ w.toNat % 16 ≠ 0) ∨
  (w.toNat / 4096 = 0xE ∧ w.toNat % 256 ∉ [0x9E, 0xA1]) ∨
  (w.toNat / 4096 = 0xF ∧ w.toNat % 256 ∉ [0x07, 0x0A, 0x15, 0x18, 0x1E, 0x29, 0x33, 0x55, 0x65])

/-- What the decoder makes of a word that has been fetched (R83, R84). -/
def wordMeaning (w : Word) : Fetched :=
  match decodeWord w with
  | some i => .instr i
  | none => .unrecognised w

/-! ## What a completed instruction may change -/

/-- The state an instruction may write besides `pc` and the tick; what it does not name stays as it was. -/
structure Touch where
  regs  : RegIx → Prop := fun _ => False
  index : Prop := False
  stack : Prop := False
  mem   : Nat → Prop := fun _ => False
  disp  : Prop := False
  dt    : Prop := False
  st    : Prop := False

/-- `t` is `s` after an instruction that completed and wrote at most what `w` names: nothing else changed but
`pc`, and each timer counted down once unless `w` names it (R86, R87). -/
structure CompletesWith (w : Touch) (s t : State) : Prop where
  regs   : ∀ r, ¬ w.regs r → t.reg r = s.reg r
  index  : ¬ w.index → t.i = s.i
  stack  : ¬ w.stack → t.stack = s.stack
  mem    : ∀ a, ¬ w.mem a → t.mem.read a = s.mem.read a
  disp   : ¬ w.disp → ∀ r c, t.pixel r c = s.pixel r c
  dt     : ¬ w.dt → t.dt.toNat = s.dt.toNat - 1
  st     : ¬ w.st → t.st.toNat = s.st.toNat - 1
  run    : t.run = s.run
  params : t.params = s.params
  inputs : t.inputs = s.inputs
  draws  : t.draws = s.draws

/-- The written columns of R34, for an instruction executed in `s`. Fx0A writes Vx only when it resumes. -/
def touchOf (s : State) : Instr → Touch
  | .cls => { disp := True }
  | .ret => { stack := True }
  | .jp _ => {}
  | .call _ => { stack := True }
  | .seVxKk _ _ => {}
  | .sneVxKk _ _ => {}
  | .seVxVy _ _ => {}
  | .ldVxKk x _ => { regs := fun r => r = x }
  | .addVxKk x _ => { regs := fun r => r = x }
  | .ldVxVy x _ => { regs := fun r => r = x }
  | .orVxVy x _ => { regs := fun r => r = x }
  | .andVxVy x _ => { regs := fun r => r = x }
  | .xorVxVy x _ => { regs := fun r => r = x }
  | .addVxVy x _ => { regs := fun r => r = x ∨ r = regVF }
  | .subVxVy x _ => { regs := fun r => r = x ∨ r = regVF }
  | .shrVx x _ => { regs := fun r => r = x ∨ r = regVF }
  | .subnVxVy x _ => { regs := fun r => r = x ∨ r = regVF }
  | .shlVx x _ => { regs := fun r => r = x ∨ r = regVF }
  | .sneVxVy _ _ => {}
  | .ldINnn _ => { index := True }
  | .jpV0Nnn _ => {}
  | .rndVxKk x _ => { regs := fun r => r = x }
  | .drwVxVyN _ _ _ => { regs := fun r => r = regVF, disp := True }
  | .skpVx _ => {}
  | .sknpVx _ => {}
  | .ldVxDt x => { regs := fun r => r = x }
  | .ldVxK _ => {}
  | .ldDtVx _ => { dt := True }
  | .ldStVx _ => { st := True }
  | .addIVx _ => { index := True }
  | .ldFVx _ => { index := True }
  | .ldBVx _ => { mem := fun a => s.i.toNat ≤ a ∧ a ≤ s.i.toNat + 2 }
  | .ldMemVx x => { mem := fun a => s.i.toNat ≤ a ∧ a ≤ s.i.toNat + x.toNat }
  | .ldVxMem x => { regs := fun r => r.toNat ≤ x.toNat }

/-! ## Which fault an instruction raises -/

/-- The fault of an access of `n` bytes at base `b`, if any (R171, first row). -/
def spillFault (b n : Nat) : Option Fault :=
  if 1 ≤ n ∧ b + n - 1 > 0xFFF then some (.memFault (BitVec.ofNat 16 (max b 0x1000))) else none

/-- The stack can take one more entry (R95). -/
def StackHasRoom (s : State) : Prop := ∀ depth, s.params.stackDepth = some depth → s.stack.length < depth

/-- The one fault condition of an instruction's own (R171, R172, R176), and what it records. -/
def FaultsWith (s : State) (f : Fault) : Instr → Prop
  | .ret => s.stack = [] ∧ f = .stackUnderflow
  | .call _ => ¬ StackHasRoom s ∧ f = .stackOverflow (s.pc + 2#16)
  | .drwVxVyN _ _ n => spillFault s.i.toNat n.toNat = some f
  | .ldBVx _ => spillFault s.i.toNat 3 = some f
  | .ldMemVx x => spillFault s.i.toNat (x.toNat + 1) = some f
  | .ldVxMem x => spillFault s.i.toNat (x.toNat + 1) = some f
  | _ => False

/-! ## The invariant of a safe run -/

/-- The stack is within `STACK_DEPTH` (R24). -/
def StackWithinDepth (s : State) : Prop := ∀ depth, s.params.stackDepth = some depth → s.stack.length ≤ depth

/-- The invariant: the memory in its canonical form, the stack within its depth, `pc` and every return address
within the bounds that R23 derives, and, while parked, the latched register number that of the Fx0A word at
`pc` (R28). -/
structure Invariant (s : State) : Prop where
  memory  : s.mem.wf = true
  stack   : StackWithinDepth s
  returns : ∀ w, w ∈ s.stack → w.toNat ≤ 0x1000
  pc      : s.pc.toNat ≤ 0x10FE
  parked  : ∀ wx, s.run = .awaitingKey wx → s.fetch = .instr (.ldVxK wx)

/-! ## The sprite, the keys, and runs of instructions -/

/-- The sprite of Dxyn has a 1 bit on the pixel of row `r` and column `c` (R141): row `r - y0` of the `n` bytes
at `I`, column `c - x0` counted from the most significant bit. -/
def spriteLit (s : State) (x y : RegIx) (n : Nibble) (r c : Nat) : Bool :=
  let x0 := (s.reg x).toNat % 64
  let y0 := (s.reg y).toNat % 32
  decide (y0 ≤ r ∧ r < y0 + n.toNat ∧ x0 ≤ c ∧ c < x0 + 8) &&
    (s.mem.read (s.i.toNat + (r - y0))).getLsbD (7 - (c - x0))

/-- The key numbered Vx exists and is held at this step (R150, R152). -/
def KeyHeld (s : State) (x : RegIx) : Prop :=
  (s.reg x).toNat ≤ 15 ∧ s.input.keys.getLsbD (s.reg x).toNat = true

/-- The instructions that read an input of the step (R34, last column). -/
def readsInput : Instr → Bool
  | .rndVxKk _ _ => true
  | .skpVx _ => true
  | .sknpVx _ => true
  | _ => false

/-- What completes once, with one tick (R87): an instruction, an unrecognised word executed as a no-op, or a
whole wait of Fx0A, ended by the key press `k` (R154). -/
inductive Completion where
  | instr (i : Instr)
  | unrecognised (ir : Word)
  | keyWait (x : RegIx) (k : Nibble)
  deriving DecidableEq, Repr

/-- One completion leads from one Running state to another. Idle steps of a parked core change no more than the
model's own input fields (R88), so a wait may leave any value in those. -/
inductive Completes : Completion → State → State → Prop where
  | instr (i : Instr) (s t : State) : exec i s = .next t → t.run = .running → Completes (.instr i) s t
  | unrecognised (ir : Word) (s t : State) :
      decodeWord ir = none → runUnrecognised ir s = .next t → t.run = .running → Completes (.unrecognised ir) s t
  | keyWait (x : RegIx) (k : Nibble) (s parked : State) (inputs : List HostInput) (draws : Nat) :
      exec (.ldVxK x) s = .next parked →
      Completes (.keyWait x k) s ({ parked with inputs := inputs, draws := draws }.keyPress k)

/-- The completions of a list follow one another. -/
inductive Executes : List Completion → State → State → Prop where
  | done (s : State) : Executes [] s s
  | more (c : Completion) (rest : List Completion) (s t u : State) :
      Completes c s t → Executes rest t u → Executes (c :: rest) s u

end Sys2Proof.Safety
end

