-- ==== Sys2Proof/Certificates/Slice0/Obligations.lean ====
section
/-! DEFINITION. The obligations: what the numbered rules of spec/ say the instructions and the machine do. `CompletesWith w s t` (Safety.lean) is the frame and the tick of each completed instruction (the tick is R87, the spec's decision D13, in every statement that uses it); `exec` is one instruction in the state in which it was fetched. The spec's decisions D<n> stand in the assumption log: D1 in entry 16, D2, D3 and D4 in 1, D6 and D7 in 2, D8 in 11, D9 in 9, D10 in 12, D11, D12 and D27 in 14, D13 in 13, D14 in 19, D15 in 10, D16 in 3, D17 in 5, D18 in 18, D20 in 15. -/

open Sys2Proof Sys2Proof.Machine Sys2Proof.Safety

/-! ## Encoding -/

/-- R61: the six fields of a word, as numbers, and their overlaps. -/
def Obligations.SixFieldsOfEveryWord : Prop :=
  ∀ w : Word,
    (fieldsOf w).op.toNat = w.toNat / 4096 ∧
    (fieldsOf w).x.toNat = w.toNat / 256 % 16 ∧
    (fieldsOf w).y.toNat = w.toNat / 16 % 16 ∧
    (fieldsOf w).kk.toNat = w.toNat % 256 ∧
    (fieldsOf w).n.toNat = w.toNat % 16 ∧
    (fieldsOf w).nnn.toNat = w.toNat % 4096 ∧
    (fieldsOf w).wellFormed = true

/-- R60, R62, R65 with R44: the decoder reads the bytes of every instruction back as that instruction, at every
value of its operands, and leaves the bytes after it. The byte order is the spec's inference (R44). -/
def Obligations.DecodeReadsEncodedInstr : Prop :=
  ∀ (i : Instr) (rest : List Byte), decode (encodeBytes i ++ rest) = .instr i rest

/-- R64, R65: each word has one meaning: the word of the instruction it decodes to is that word. -/
def Obligations.EncodeRestoresDecodedWord : Prop :=
  ∀ (w : Word) (i : Instr), decodeWord w = some i → encode i = w

/-- R64, R65: a word selects a row exactly when `w & mask == match`, and no two rows match one word. Which digits
of a pattern count is the spec's decision D8. -/
def Obligations.RowMatchesMaskedWord : Prop :=
  (∀ (w : Word) (i : Instr), w &&& (rowOf i).1 = (rowOf i).2 ↔ ∃ j, decodeWord w = some j ∧ rowOf j = rowOf i) ∧
  (∀ (w : Word) (i j : Instr), w &&& (rowOf i).1 = (rowOf i).2 → w &&& (rowOf j).1 = (rowOf j).2 → rowOf i = rowOf j)

/-- R66: the words that select no row are exactly the six sets. -/
def Obligations.UnrecognisedWordsAreSixSets : Prop :=
  ∀ w : Word, decodeWord w = none ↔ Unrecognised w

/-- Words written out from the spec (95_test_vectors.md 2.1) decode to what it says. The byte order is the spec's
inference (R44, log entry 7); that 0x01E0 is unrecognised is its decision D8 (log entry 11). -/
def Obligations.SpecWordsDecode : Prop :=
  decode [0x8A#8, 0xB4#8] = .instr (.addVxVy 0xA#4 0xB#4) [] ∧
  decode [0xD0#8, 0x12#8] = .instr (.drwVxVyN 0x0#4 0x1#4 0x2#4) [] ∧
  decode [0xF2#8, 0x65#8] = .instr (.ldVxMem 0x2#4) [] ∧
  decode [0x1F#8, 0xFF#8] = .instr (.jp 0xFFF#12) [] ∧
  decode [0x33#8, 0x2A#8] = .instr (.seVxKk 0x3#4 0x2A#8) [] ∧
  decode [0x01#8, 0xE0#8] = .unrecognised 0x01E0#16 []

/-! ## The step -/

/-- R80 to R84: a running step executes the instruction that the two bytes at `pc` decode to, and consumes its
input (the model's own part, log entry 3). -/
def Obligations.StepExecutesDecodedInstr : Prop :=
  ∀ (s : State) (i : Instr),
    s.run = .running → s.pc.toNat ≤ 0xFFE →
    decode [s.mem.read s.pc.toNat, s.mem.read (s.pc.toNat + 1)] = .instr i [] →
    ∃ t, exec i s = .next t ∧
      step s = .next { t with inputs := s.inputs.tail, draws := s.draws + 1 }

/-- R81: the fetch reads `pc` and `pc + 1`, the first byte into bits 15 to 8, and gives what the decoder makes of
that word; past 0xFFE it raises the fetch fault. A step that fetches out of range takes that fault and changes
nothing else of the core. The byte order is the spec's inference (R44, log entry 7), the recorded address its
decision D27 (log entry 14), the precise fault its decision D2 (log entry 1). -/
def Obligations.FetchReadsOrFaults : Prop :=
  ∀ s : State,
    (s.pc.toNat ≤ 0xFFE →
      s.memRead s.pc.toNat 2 = .ok [s.mem.read s.pc.toNat, s.mem.read (s.pc.toNat + 1)] ∧
      (wordOfBytes (s.mem.read s.pc.toNat) (s.mem.read (s.pc.toNat + 1))).toNat =
        256 * (s.mem.read s.pc.toNat).toNat + (s.mem.read (s.pc.toNat + 1)).toNat ∧
      s.fetch = wordMeaning (wordOfBytes (s.mem.read s.pc.toNat) (s.mem.read (s.pc.toNat + 1)))) ∧
    (0xFFE < s.pc.toNat →
      s.memRead s.pc.toNat 2 = .error (.memFault (BitVec.ofNat 16 (max s.pc.toNat 0x1000))) ∧
      s.fetch = .fault (.memFault (BitVec.ofNat 16 (max s.pc.toNat 0x1000)))) ∧
    (0xFFE < s.pc.toNat → s.run = .running →
      step s = .next { s with
        run := .faulted (.memFault (BitVec.ofNat 16 (max s.pc.toNat 0x1000)))
        inputs := s.inputs.tail, draws := s.draws + 1 })

/-- R85: an unrecognised word is a no-op that completes and ticks in lenient mode, and a fault that records the
word in strict mode. Rests on the spec's decisions D7 and D13. -/
def Obligations.UnrecognisedWordSteps : Prop :=
  ∀ (s : State) (ir : Word),
    s.run = .running → s.pc.toNat ≤ 0xFFE →
    ir = wordOfBytes (s.mem.read s.pc.toNat) (s.mem.read (s.pc.toNat + 1)) → Unrecognised ir →
    (s.params.strictDecode = false →
      ∃ t, step s = .next t ∧ CompletesWith {} s.consumeInput t ∧ t.pc = s.pc + 2#16) ∧
    (s.params.strictDecode = true →
      step s = .next { s with
        run := .faulted (.illegalInstruction ir), inputs := s.inputs.tail, draws := s.draws + 1 })

/-- R88, R153: a step while parked does nothing but consume its input, when no key press arrives in its place; with
a key press it is the `key_press` event (the model's schedule, log entry 4). -/
def Obligations.ParkedStepWaits : Prop :=
  ∀ (s : State) (wx : RegIx), s.run = .awaitingKey wx →
    (s.input.press = none → step s = .next { s with inputs := s.inputs.tail, draws := s.draws + 1 }) ∧
    (∀ k, s.input.press = some k →
      step s = .next { s.keyPress k with inputs := s.inputs.tail, draws := s.draws + 1 })

/-- R177: a faulted core reports the same fault at every step, changes nothing, and drops a key press. -/
def Obligations.FaultedCoreStaysFaulted : Prop :=
  ∀ (s : State) (f : Fault), s.run = .faulted f →
    step s = .fault f ∧
    (∀ keys rnd, s.stepEvent keys rnd = .stepped (.fault f) s) ∧
    (∀ k, s.hostEvent (.keyPress k) = .pressed s)

/-- R88: the result of a `step` event and the run state after it, by the run state before it. Rests on the spec's
decisions D2, D3 and D14. -/
def Obligations.StepEventResults : Prop :=
  ∀ (s : State) (keys : BitVec 16) (rnd : Byte),
    (s.run = .running → ∃ t, s.stepEvent keys rnd = .stepped t.result t ∧
      (∀ f, t.result = .fault f → t = { s with run := .faulted f, draws := s.draws + 1 }) ∧
      (t.result = .waiting → ∃ x, s.fetch = .instr (.ldVxK x) ∧
        t = { s with run := .awaitingKey x, draws := s.draws + 1 }) ∧
      (t.result = .ok → t.run = .running)) ∧
    (∀ wx, s.run = .awaitingKey wx → s.stepEvent keys rnd = .stepped .waiting { s with draws := s.draws + 1 }) ∧
    (∀ f, s.run = .faulted f → s.stepEvent keys rnd = .stepped (.fault f) s)

/-- R9: the arguments of a `step` event are what RND, SKP and SKNP read in that step. -/
def Obligations.StepEventInputsReachInstr : Prop :=
  ∀ (s : State) (keys : BitVec 16) (rnd : Byte), s.run = .running →
    (∀ x kk, s.fetch = .instr (.rndVxKk x kk) →
      ∃ t, s.stepEvent keys rnd = .stepped .ok t ∧ t.reg x = rnd &&& kk) ∧
    (∀ x, s.fetch = .instr (.skpVx x) →
      ∃ t, s.stepEvent keys rnd = .stepped .ok t ∧
        t.pc = if (s.reg x).toNat ≤ 15 ∧ keys.getLsbD (s.reg x).toNat = true then s.pc + 4#16 else s.pc + 2#16) ∧
    (∀ x, s.fetch = .instr (.sknpVx x) →
      ∃ t, s.stepEvent keys rnd = .stepped .ok t ∧
        t.pc = if (s.reg x).toNat ≤ 15 ∧ keys.getLsbD (s.reg x).toNat = true then s.pc + 2#16 else s.pc + 4#16)

/-- An instruction word placed with `withFetchWord` is what the next step executes (log entry 8). -/
def Obligations.PlacedWordIsExecuted : Prop :=
  ∀ (s : State) (nbits w : Nat) (i : Instr),
    s.mem.wf = true → s.pc.toNat ≤ 0xFFE → decodeTableWord nbits w = some i →
    ∃ t, exec i (s.withFetchWord nbits w) = .next t ∧
      step (s.withFetchWord nbits w) = .next { t with inputs := s.inputs.tail, draws := s.draws + 1 }

/-! ## Whole-machine rules -/

/-- R34, R86, R87, R171, R175: every instruction, in every state, takes its own fault, or parks (Fx0A), or
completes: it ticks both timers and changes nothing outside `pc` and the columns that R34 says it writes. Rests on
the spec's decisions D2 (log entry 1), D11, D12 and D27 (log entry 14) for the faults, D14 (log entry 19) for the
parking, D13 (log entry 13) for the tick, D20 (log entry 15) for an unchanged `I`. -/
def Obligations.EveryInstrFaultsParksOrCompletes : Prop :=
  ∀ (i : Instr) (s : State), ∃ t, exec i s = .next t ∧
    (∀ f, FaultsWith s f i → t = { s with run := .faulted f }) ∧
    (∀ x, i = .ldVxK x → t = { s with run := .awaitingKey x }) ∧
    ((∀ f, ¬ FaultsWith s f i) → (∀ x, i ≠ .ldVxK x) → CompletesWith (touchOf s i) s t)

/-- R89, R175: a step that faults leaves `V`, `I`, `pc`, `stack`, `mem`, `disp`, `DT` and `ST` exactly as they
were. Rests on the spec's decision D2. -/
def Obligations.FaultsArePrecise : Prop :=
  ∀ (s t : State) (f : Fault), s.run = .running → step s = .next t → t.run = .faulted f →
    t = { s with run := .faulted f, inputs := s.inputs.tail, draws := s.draws + 1 }

/-- R22, R24, R25, R48: only Annn, Fx1E and Fx29 change `I`, only 2nnn and 00EE change the stack, only 00E0 and
Dxyn change the display, only Fx33 and Fx55 change memory. That the transfers and Dxyn leave `I` alone is the
spec's decision D20 (log entry 15). -/
def Obligations.OnlyTheirWritersChangeStores : Prop :=
  ∀ s t : State, step s = .next t →
    (t.i ≠ s.i → ∃ i, s.fetch = .instr i ∧ ((∃ nnn, i = .ldINnn nnn) ∨ (∃ x, i = .addIVx x) ∨ ∃ x, i = .ldFVx x)) ∧
    (t.stack ≠ s.stack → ∃ i, s.fetch = .instr i ∧ (i = .ret ∨ ∃ nnn, i = .call nnn)) ∧
    ((∃ r c, t.pixel r c ≠ s.pixel r c) → ∃ i, s.fetch = .instr i ∧ (i = .cls ∨ ∃ x y n, i = .drwVxVyN x y n)) ∧
    (t.mem ≠ s.mem → ∃ i, s.fetch = .instr i ∧ ((∃ x, i = .ldBVx x) ∨ ∃ x, i = .ldMemVx x))

/-- R23, R86: an instruction leaves `pc` where it was when it faults or parks; otherwise only 00EE, 1nnn, 2nnn and
Bnnn lead anywhere, and only a skip leads 4 further. -/
def Obligations.OnlyControlTransfersMovePc : Prop :=
  ∀ (i : Instr) (s t : State), exec i s = .next t →
    t.pc = s.pc + 2#16 ∨
    (t.pc = s.pc ∧ ((∃ x, i = .ldVxK x) ∨ ∃ f, FaultsWith s f i)) ∨
    (t.pc = s.pc + 4#16 ∧ ((∃ x kk, i = .seVxKk x kk) ∨ (∃ x kk, i = .sneVxKk x kk) ∨ (∃ x y, i = .seVxVy x y) ∨
      (∃ x y, i = .sneVxVy x y) ∨ (∃ x, i = .skpVx x) ∨ ∃ x, i = .sknpVx x)) ∨
    (i = .ret ∧ t.pc :: t.stack = s.stack) ∨
    (∃ nnn, (i = .jp nnn ∨ i = .call nnn) ∧ t.pc = nnn.toWord) ∨
    (∃ nnn, i = .jpV0Nnn nnn ∧ t.pc.toNat = nnn.toNat + (s.reg 0#4).toNat)

/-- R10, R34: an instruction that reads neither `keys` nor `rnd` does the same whatever the host presents. -/
def Obligations.InputsReachOnlyTheirReaders : Prop :=
  ∀ (i : Instr) (s : State) (inputs : List HostInput) (draws : Nat), readsInput i = false →
    ∃ t, exec i s = .next t ∧
      exec i { s with inputs := inputs, draws := draws } = .next { t with inputs := inputs, draws := draws }

/-- R204: the parameters do not change until the next `reset_load`. -/
def Obligations.StepKeepsParameters : Prop :=
  ∀ s t : State, step s = .next t → t.params = s.params

/-- R87, R158: a value written by Fx15 is read by Fx07, `m` completions later, as `max(v - m, 0)`, when no other
Fx15 stands between: instructions, unrecognised no-ops, and whole waits of Fx0A, each of which counts one. Rests on
the spec's decisions D13 (log entry 13) and D14 (log entry 19). -/
def Obligations.DelayTimerCountsInstructions : Prop :=
  ∀ (x y : RegIx) (between : List Completion) (s t u : State),
    s.run = .running → exec (.ldDtVx x) s = .next t → Executes between t u →
    (∀ c ∈ between, ∀ z, c ≠ .instr (.ldDtVx z)) →
    ∃ w, exec (.ldVxDt y) u = .next w ∧ (w.reg y).toNat = (s.reg x).toNat - (between.length + 1)

/-- R23, R24, R28, R41: every step keeps the invariant: the memory's canonical form, the stack within its depth,
`pc` at most 0x10FE, return addresses at most 0x1000, the latched register that of the Fx0A at `pc`. The bounds are
the spec's own derivations; the canonical form is the model's (log entry 5). -/
def Obligations.StepKeepsInvariant : Prop :=
  ∀ s t : State, Invariant s → step s = .next t → Invariant t

/-! ## Reset and load -/

/-- R33, R204: the machine after reset has its reset values and meets the invariant. The zero fill of memory is the
spec's decision D17 (log entry 5), the font bytes are its default (R203, log entry 6), and so are the two parameters
(R4, log entry 2). -/
def Obligations.ResetStateIsClear : Prop :=
  Invariant State.reset ∧ State.reset.pc.toNat = 0x200 ∧ State.reset.run = .running ∧
  (∀ r, State.reset.reg r = 0#8) ∧ State.reset.i = 0#16 ∧ State.reset.stack = [] ∧
  State.reset.dt = 0#8 ∧ State.reset.st = 0#8 ∧ (∀ r c, State.reset.pixel r c = false) ∧
  State.reset.params.stackDepth = some 16 ∧ State.reset.params.strictDecode = false ∧
  (∀ a, State.reset.mem.read a =
    if 0x050 ≤ a ∧ a < 0x0A0 then Config.defaultFont.toList.getD (a - 0x050) 0#8 else 0#8)

/-- R202, R204: what `reset_load` of 1 to 3584 bytes builds: zeros, the font at 0x050, the program at 0x200, every
other piece of state at its reset value. The zero fill is the spec's decision D17. -/
def Obligations.ResetLoadBuildsMachine : Prop :=
  ∀ (params : Config.Params) (font : Config.Font) (program : List Byte),
    1 ≤ program.length → program.length ≤ 3584 →
    ∃ s, resetLoad params font program = .ok s ∧ Invariant s ∧
      (∀ a, s.mem.read a =
        if 0x200 ≤ a ∧ a < 0x200 + program.length then program.getD (a - 0x200) 0#8
        else if 0x050 ≤ a ∧ a < 0x0A0 then font.toList.getD (a - 0x050) 0#8 else 0#8) ∧
      (∀ r, s.reg r = 0#8) ∧ s.i = 0#16 ∧ s.pc = 0x200#16 ∧ s.stack = [] ∧ s.dt = 0#8 ∧ s.st = 0#8 ∧
      (∀ r c, s.pixel r c = false) ∧ s.run = .running ∧ s.params = params

/-- R201, R200: `reset_load` rejects the empty program and the program of more than 3584 bytes, and accepts every
other one, whatever state the core is in. The limit of 3584 is the spec's decision D18. -/
def Obligations.ResetLoadRejections : Prop :=
  ∀ (s : State) (params : Config.Params) (font : Config.Font) (program : List Byte),
    (program.length = 0 → s.hostEvent (.resetLoad params font program) = .loadError .emptyProgram) ∧
    (3584 < program.length → s.hostEvent (.resetLoad params font program) = .loadError .programTooLarge) ∧
    (1 ≤ program.length → program.length ≤ 3584 →
      ∃ t, s.hostEvent (.resetLoad params font program) = .loaded t ∧ t.run = .running ∧ t.pc = 0x200#16)

/-! ## Memory -/

/-- R47, R49: `MemWrite` checks the whole access first; in range it writes its bytes and no other cell, and a
`MemRead` of the same range then returns them; out of range it faults. The fault's address is the spec's D27. -/
def Obligations.MemWriteThenRead : Prop :=
  ∀ (s : State) (addr : Nat) (bytes : List Byte), s.mem.wf = true →
    ((bytes = [] ∨ addr + bytes.length - 1 ≤ 0xFFF) →
      ∃ t, s.memWrite addr bytes = .ok t ∧ t = { s with mem := t.mem } ∧ t.mem.wf = true ∧
        t.memRead addr bytes.length = .ok bytes ∧
        ∀ a, (a < addr ∨ addr + bytes.length ≤ a) → t.mem.read a = s.mem.read a) ∧
    ((bytes ≠ [] ∧ 0xFFF < addr + bytes.length - 1) →
      s.memWrite addr bytes = .error (.memFault (BitVec.ofNat 16 (max addr 0x1000))))

/-- R52: a word stored by Fx55 or Fx33 over the next instruction is what the very next step fetches: V0 and V1, or
the hundreds and tens digits. The order of the two bytes is the spec's inference (R44, log entry 7); that the store
is seen at once is its decision D21. -/
def Obligations.StoredWordIsFetchedNext : Prop :=
  ∀ (s : State) (x : RegIx), s.mem.wf = true → s.run = .running → s.i = s.pc + 2#16 →
    (s.fetch = .instr (.ldMemVx x) → 1 ≤ x.toNat → s.pc.toNat + 2 + x.toNat ≤ 0xFFF →
      ∃ t, step s = .next t ∧ t.run = .running ∧ t.pc = s.pc + 2#16 ∧
        t.memRead t.pc.toNat 2 = .ok [s.reg 0#4, s.reg 1#4] ∧
        t.fetch = wordMeaning (wordOfBytes (s.reg 0#4) (s.reg 1#4))) ∧
    (s.fetch = .instr (.ldBVx x) → s.pc.toNat + 4 ≤ 0xFFF →
      ∃ t, step s = .next t ∧ t.run = .running ∧ t.pc = s.pc + 2#16 ∧
        ∃ hundreds tens : Byte, hundreds.toNat = (s.reg x).toNat / 100 ∧ tens.toNat = (s.reg x).toNat / 10 % 10 ∧
          t.memRead t.pc.toNat 2 = .ok [hundreds, tens] ∧ t.fetch = wordMeaning (wordOfBytes hundreds tens))

/-- R41: each address 0x000 to 0xFFF names one byte cell, which can be read and written without touching any other;
an access to any address beyond is a fault, not a wraparound. -/
def Obligations.MainMemoryHas4096Cells : Prop :=
  ∀ (s : State) (a : Nat) (b : Byte), s.mem.wf = true →
    (a ≤ 0xFFF →
      s.memRead a 1 = .ok [s.mem.read a] ∧
      ∃ t, s.memWrite a [b] = .ok t ∧ t.memRead a 1 = .ok [b] ∧ ∀ c ≠ a, t.memRead c 1 = s.memRead c 1) ∧
    (0xFFF < a →
      (∃ info, s.memRead a 1 = .error (.memFault info)) ∧ ∃ info, s.memWrite a [b] = .error (.memFault info))

/-! ## Control transfer -/

/-- R96: `Pop` returns the most recently pushed address and removes it alone; on an empty stack it raises the
underflow. -/
def Obligations.PopReturnsLastPushed : Prop :=
  ∀ s : State,
    (∀ (w : Word) (t : State), s.push w = .ok t → t.pop = .ok (w, s)) ∧
    (s.stack.length ≠ 0 → ∃ w t, s.pop = .ok (w, t) ∧ t = { s with stack := t.stack } ∧
      t.stack.length + 1 = s.stack.length) ∧
    (s.stack.length = 0 → s.pop = .error .stackUnderflow)

/-- R97: 00EE, the word 0x00EE exactly (D8, log entry 11), pops the stack into `pc`, unchecked (a value above 0xFFE
is a fault of the next fetch), and ticks (D13, log entry 13); on an empty stack it faults and nothing changes (D2,
log entry 1). The D<n> are the spec's decisions. -/
def Obligations.RetPopsOrUnderflows : Prop :=
  (∀ w : Word, decodeWord w = some .ret ↔ w = 0x00EE#16) ∧
  ∀ s : State,
    (∀ w rest, s.stack = w :: rest →
      ∃ t, exec .ret s = .next t ∧ CompletesWith { stack := True } s t ∧ t.pc = w ∧ t.stack = rest ∧
        (0xFFE < w.toNat → ∃ f, t.fetch = .fault f)) ∧
    (s.stack = [] → exec .ret s = .next { s with run := .faulted .stackUnderflow })

/-- R98, R105: 1nnn goes to `nnn`, Bnnn to `nnn + V0`, in 16 bits without a wrap, whatever the target; a target
above 0xFFE is a fault of the next fetch. The tick is the spec's decision D13 (log entry 13). -/
def Obligations.JumpTargets : Prop :=
  ∀ (nnn : Addr12) (s : State),
    decodeWord (0x1#4 ++ nnn : Word) = some (.jp nnn) ∧
    decodeWord (0xB#4 ++ nnn : Word) = some (.jpV0Nnn nnn) ∧
    (∃ t, exec (.jp nnn) s = .next t ∧ CompletesWith {} s t ∧ t.pc.toNat = nnn.toNat ∧
      (0xFFE < t.pc.toNat → ∃ f, t.fetch = .fault f)) ∧
    (∃ t, exec (.jpV0Nnn nnn) s = .next t ∧ CompletesWith {} s t ∧
      t.pc.toNat = nnn.toNat + (s.reg 0#4).toNat ∧ (0xFFE < t.pc.toNat → ∃ f, t.fetch = .fault f))

/-- R100: 2nnn pushes the address after itself and goes to `nnn`; on a full stack it faults and nothing changes.
The pushed value is the spec's decision D1, the depth its parameter (D6). -/
def Obligations.CallPushesOrOverflows : Prop :=
  ∀ (nnn : Addr12) (s : State),
    (StackHasRoom s →
      ∃ t, exec (.call nnn) s = .next t ∧ CompletesWith { stack := True } s t ∧
        t.pc.toNat = nnn.toNat ∧ t.stack = (s.pc + 2#16) :: s.stack) ∧
    (¬ StackHasRoom s → exec (.call nnn) s = .next { s with run := .faulted (.stackOverflow (s.pc + 2#16)) })

/-- R106: a call followed immediately by the return at its target leaves `pc` at the instruction after the call
and the stack as it was; two ticks occur on the way. The pushed value is the spec's decision D1 (log entry 16), the
ticks its decision D13 (log entry 13). -/
def Obligations.CallThenReturn : Prop :=
  ∀ (s : State) (nnn : Addr12),
    s.run = .running → StackHasRoom s → s.fetch = .instr (.call nnn) →
    { s with pc := nnn.toWord }.fetch = .instr .ret →
    ∃ t u, step s = .next t ∧ t.pc.toNat = nnn.toNat ∧ step t = .next u ∧
      u.pc = s.pc + 2#16 ∧ u.stack = s.stack ∧ u.run = .running ∧
      u.dt.toNat = s.dt.toNat - 2 ∧ u.st.toNat = s.st.toNat - 2 ∧ u.v = s.v ∧ u.mem = s.mem

/-- R101 to R104: the skips go 4 further when their condition holds and 2 further otherwise; nothing is written.
5xyN and 9xyN with N other than 0 are unrecognised (the spec's decision D8, log entry 11). The tick is its decision
D13 (log entry 13). -/
def Obligations.SkipsOnCondition : Prop :=
  ∀ (x y : RegIx) (kk : Byte) (s : State),
    (decodeWord (0x3#4 ++ (x ++ kk : BitVec 12) : Word) = some (.seVxKk x kk) ∧
      ∃ t, exec (.seVxKk x kk) s = .next t ∧ CompletesWith {} s t ∧
        t.pc = if s.reg x = kk then s.pc + 4#16 else s.pc + 2#16) ∧
    (decodeWord (0x4#4 ++ (x ++ kk : BitVec 12) : Word) = some (.sneVxKk x kk) ∧
      ∃ t, exec (.sneVxKk x kk) s = .next t ∧ CompletesWith {} s t ∧
        t.pc = if s.reg x = kk then s.pc + 2#16 else s.pc + 4#16) ∧
    ((∀ n : Nibble, decodeWord (0x5#4 ++ (x ++ (y ++ n : BitVec 8) : BitVec 12) : Word) =
        if n = 0#4 then some (.seVxVy x y) else none) ∧
      ∃ t, exec (.seVxVy x y) s = .next t ∧ CompletesWith {} s t ∧
        t.pc = if s.reg x = s.reg y then s.pc + 4#16 else s.pc + 2#16) ∧
    ((∀ n : Nibble, decodeWord (0x9#4 ++ (x ++ (y ++ n : BitVec 8) : BitVec 12) : Word) =
        if n = 0#4 then some (.sneVxVy x y) else none) ∧
      ∃ t, exec (.sneVxVy x y) s = .next t ∧ CompletesWith {} s t ∧
        t.pc = if s.reg x = s.reg y then s.pc + 2#16 else s.pc + 4#16)

/-! ## Register instructions -/

/-- R110: a step that fetches 6xkk leaves `kk` in Vx, for every `x` and `kk`, whatever Vx held, and completes; VF
and every other register is not written (VF is when x = 15). -/
def Obligations.LoadImmediateYieldsOperand : Prop :=
  ∀ (x : RegIx) (kk : Byte),
    decodeWord (0x6#4 ++ (x ++ kk : BitVec 12) : Word) = some (.ldVxKk x kk) ∧
    ∀ s : State, s.run = .running → s.fetch = .instr (.ldVxKk x kk) →
      ∃ t, step s = .next t ∧ t.run = .running ∧ t.reg x = kk ∧ ∀ r, r ≠ x → t.reg r = s.reg r

/-- R110, R111, R112: the loads of a register, and the immediate add, modulo 256 and without a flag. The tick is the
spec's decision D13 (log entry 13). -/
def Obligations.LoadsAndImmediateAdd : Prop :=
  ∀ (x y : RegIx) (kk : Byte) (s : State),
    (decodeWord (0x6#4 ++ (x ++ kk : BitVec 12) : Word) = some (.ldVxKk x kk) ∧
      ∃ t, exec (.ldVxKk x kk) s = .next t ∧ CompletesWith { regs := fun r => r = x } s t ∧
      t.pc = s.pc + 2#16 ∧ t.reg x = kk) ∧
    (decodeWord (0x7#4 ++ (x ++ kk : BitVec 12) : Word) = some (.addVxKk x kk) ∧
      ∃ t, exec (.addVxKk x kk) s = .next t ∧ CompletesWith { regs := fun r => r = x } s t ∧
      t.pc = s.pc + 2#16 ∧ (t.reg x).toNat = ((s.reg x).toNat + kk.toNat) % 256) ∧
    (decodeWord (0x8#4 ++ (x ++ (y ++ 0x0#4 : BitVec 8) : BitVec 12) : Word) = some (.ldVxVy x y) ∧
      ∃ t, exec (.ldVxVy x y) s = .next t ∧ CompletesWith { regs := fun r => r = x } s t ∧
      t.pc = s.pc + 2#16 ∧ t.reg x = s.reg y)

/-- R113, R114, R115: the three logical operations, bit by bit, without a flag. The tick is the spec's decision D13
(log entry 13). -/
def Obligations.LogicBitByBit : Prop :=
  ∀ (x y : RegIx) (s : State),
    (decodeWord (0x8#4 ++ (x ++ (y ++ 0x1#4 : BitVec 8) : BitVec 12) : Word) = some (.orVxVy x y) ∧
      ∃ t, exec (.orVxVy x y) s = .next t ∧ CompletesWith { regs := fun r => r = x } s t ∧ t.pc = s.pc + 2#16 ∧
      ∀ k < 8, (t.reg x).getLsbD k = ((s.reg x).getLsbD k || (s.reg y).getLsbD k)) ∧
    (decodeWord (0x8#4 ++ (x ++ (y ++ 0x2#4 : BitVec 8) : BitVec 12) : Word) = some (.andVxVy x y) ∧
      ∃ t, exec (.andVxVy x y) s = .next t ∧ CompletesWith { regs := fun r => r = x } s t ∧ t.pc = s.pc + 2#16 ∧
      ∀ k < 8, (t.reg x).getLsbD k = ((s.reg x).getLsbD k && (s.reg y).getLsbD k)) ∧
    (decodeWord (0x8#4 ++ (x ++ (y ++ 0x3#4 : BitVec 8) : BitVec 12) : Word) = some (.xorVxVy x y) ∧
      ∃ t, exec (.xorVxVy x y) s = .next t ∧ CompletesWith { regs := fun r => r = x } s t ∧ t.pc = s.pc + 2#16 ∧
      ∀ k < 8, (t.reg x).getLsbD k = ((s.reg x).getLsbD k != (s.reg y).getLsbD k))

/-- R116: 8xy4 writes the sum modulo 256, then VF := 1 exactly when the unwrapped sum exceeds 255; with x = 15 the
carry is what remains (the spec's decision D9, log entry 9). The tick is its decision D13 (log entry 13). -/
def Obligations.AddSetsCarry : Prop :=
  ∀ (x y : RegIx) (s : State),
    decodeWord (0x8#4 ++ (x ++ (y ++ 0x4#4 : BitVec 8) : BitVec 12) : Word) = some (.addVxVy x y) ∧
    ∃ t, exec (.addVxVy x y) s = .next t ∧ CompletesWith { regs := fun r => r = x ∨ r = regVF } s t ∧
      t.pc = s.pc + 2#16 ∧
      (x ≠ regVF → (t.reg x).toNat = ((s.reg x).toNat + (s.reg y).toNat) % 256) ∧
      (t.reg regVF).toNat = if (s.reg x).toNat + (s.reg y).toNat > 255 then 1 else 0

/-- R117: 8xy5 writes the difference modulo 256, then VF := 1 exactly when Vx was strictly greater than Vy; with
x = 15 the flag is what remains (the spec's decision D9, log entry 9). The tick is its decision D13 (log entry
13). -/
def Obligations.SubSetsStrictFlag : Prop :=
  ∀ (x y : RegIx) (s : State),
    decodeWord (0x8#4 ++ (x ++ (y ++ 0x5#4 : BitVec 8) : BitVec 12) : Word) = some (.subVxVy x y) ∧
    ∃ t, exec (.subVxVy x y) s = .next t ∧ CompletesWith { regs := fun r => r = x ∨ r = regVF } s t ∧
      t.pc = s.pc + 2#16 ∧
      (x ≠ regVF → (t.reg x).toNat =
        if (s.reg y).toNat ≤ (s.reg x).toNat then (s.reg x).toNat - (s.reg y).toNat
        else (s.reg x).toNat + 256 - (s.reg y).toNat) ∧
      (t.reg regVF).toNat = if (s.reg x).toNat > (s.reg y).toNat then 1 else 0

/-- R118, R120: the shifts write the bit about to be shifted out to VF, then shift Vx in place; Vy takes no part.
With x = 15 the flag is shifted again, which is the spec's decision D9. -/
def Obligations.ShiftsInPlace : Prop :=
  ∀ (x y : RegIx) (s : State),
    (∃ t, exec (.shrVx x y) s = .next t ∧ CompletesWith { regs := fun r => r = x ∨ r = regVF } s t ∧
      t.pc = s.pc + 2#16 ∧
      (x ≠ regVF → (t.reg x).toNat = (s.reg x).toNat / 2 ∧ (t.reg regVF).toNat = (s.reg x).toNat % 2) ∧
      (x = regVF → (t.reg regVF).toNat = 0)) ∧
    (∃ t, exec (.shlVx x y) s = .next t ∧ CompletesWith { regs := fun r => r = x ∨ r = regVF } s t ∧
      t.pc = s.pc + 2#16 ∧
      (x ≠ regVF → (t.reg x).toNat = (s.reg x).toNat * 2 % 256 ∧ (t.reg regVF).toNat = (s.reg x).toNat / 128) ∧
      (x = regVF → (t.reg regVF).toNat = (s.reg x).toNat / 128 * 2))

/-- R119, R123: 8xy7 writes VF := (Vx <= Vy), then Vx := Vy - Vx modulo 256 from what the registers hold after that
write. The four clauses follow from the order of the statements, the spec's decision D9. -/
def Obligations.SubnFlagThenDifference : Prop :=
  ∀ (x y : RegIx) (s : State) (f : Nat), f = (if (s.reg x).toNat ≤ (s.reg y).toNat then 1 else 0) →
    ∃ t, exec (.subnVxVy x y) s = .next t ∧ CompletesWith { regs := fun r => r = x ∨ r = regVF } s t ∧
      t.pc = s.pc + 2#16 ∧
      (x ≠ regVF → (t.reg regVF).toNat = f) ∧
      (x ≠ regVF → y ≠ regVF → (t.reg x).toNat = ((s.reg y).toNat + 256 - (s.reg x).toNat) % 256) ∧
      (x ≠ regVF → y = regVF → (t.reg x).toNat = (f + 256 - (s.reg x).toNat) % 256) ∧
      (x = regVF → y ≠ regVF → (t.reg regVF).toNat = ((s.reg y).toNat + 256 - f) % 256) ∧
      (x = regVF → y = regVF → (t.reg regVF).toNat = 0)

/-- R121: Cxkk writes the random byte of the step ANDed with `kk`; the byte is any value, held in the model's own
input field (log entry 3). The tick is the spec's decision D13 (log entry 13). -/
def Obligations.RandomByteMasked : Prop :=
  ∀ (x : RegIx) (kk : Byte) (s : State),
    decodeWord (0xC#4 ++ (x ++ kk : BitVec 12) : Word) = some (.rndVxKk x kk) ∧
    ∃ t, exec (.rndVxKk x kk) s = .next t ∧ CompletesWith { regs := fun r => r = x } s t ∧ t.pc = s.pc + 2#16 ∧
      ∀ k < 8, (t.reg x).getLsbD k = (s.input.rnd.getLsbD k && kk.getLsbD k)

/-! ## Index register and memory transfers -/

/-- R130, R132: Annn sets `I` to `nnn`, Fx29 to the glyph address of the low nibble of Vx; no flag. The
tick is the spec's decision D13 (log entry 13). -/
def Obligations.IndexSetToAddress : Prop :=
  ∀ (nnn : Addr12) (x : RegIx) (s : State),
    (decodeWord (0xA#4 ++ nnn : Word) = some (.ldINnn nnn) ∧
      ∃ t, exec (.ldINnn nnn) s = .next t ∧ CompletesWith { index := True } s t ∧ t.pc = s.pc + 2#16 ∧
        t.i.toNat = nnn.toNat) ∧
    (decodeWord (0xF#4 ++ (x ++ 0x29#8 : BitVec 12) : Word) = some (.ldFVx x) ∧
      ∃ t, exec (.ldFVx x) s = .next t ∧ CompletesWith { index := True } s t ∧ t.pc = s.pc + 2#16 ∧
        t.i.toNat = 0x050 + 5 * ((s.reg x).toNat % 16))

/-- R131: Fx1E adds Vx to `I` in 16 bits and writes no flag. The width of the wrap is the spec's decision D10. -/
def Obligations.IndexAddWrapsAt16Bits : Prop :=
  ∀ (x : RegIx) (s : State),
    ∃ t, exec (.addIVx x) s = .next t ∧ CompletesWith { index := True } s t ∧ t.pc = s.pc + 2#16 ∧
      t.i.toNat = (s.i.toNat + (s.reg x).toNat) % 65536

/-- R133: Fx33 stores the three decimal digits of Vx at `I`, `I + 1`, `I + 2`, or faults and stores none. Rests on
the spec's decision D11. -/
def Obligations.DecimalDigitsStored : Prop :=
  ∀ (x : RegIx) (s : State), s.mem.wf = true →
    (s.i.toNat ≤ 0xFFD →
      ∃ t, exec (.ldBVx x) s = .next t ∧
        CompletesWith { mem := fun a => s.i.toNat ≤ a ∧ a ≤ s.i.toNat + 2 } s t ∧ t.pc = s.pc + 2#16 ∧
        (t.mem.read s.i.toNat).toNat = (s.reg x).toNat / 100 ∧
        (t.mem.read (s.i.toNat + 1)).toNat = (s.reg x).toNat / 10 % 10 ∧
        (t.mem.read (s.i.toNat + 2)).toNat = (s.reg x).toNat % 10) ∧
    (0xFFD < s.i.toNat →
      exec (.ldBVx x) s = .next { s with run := .faulted (.memFault (BitVec.ofNat 16 (max s.i.toNat 0x1000))) })

/-- R134, R136: Fx55 stores V0 to Vx from `I` on, or faults and stores nothing; `I` is unchanged. Rests on the
spec's decisions D11 and D20. -/
def Obligations.RegistersStored : Prop :=
  ∀ (x : RegIx) (s : State), s.mem.wf = true →
    (s.i.toNat + x.toNat ≤ 0xFFF →
      ∃ t, exec (.ldMemVx x) s = .next t ∧
        CompletesWith { mem := fun a => s.i.toNat ≤ a ∧ a ≤ s.i.toNat + x.toNat } s t ∧ t.pc = s.pc + 2#16 ∧
        ∀ r : RegIx, r.toNat ≤ x.toNat → t.mem.read (s.i.toNat + r.toNat) = s.reg r) ∧
    (0xFFF < s.i.toNat + x.toNat →
      exec (.ldMemVx x) s = .next { s with run := .faulted (.memFault (BitVec.ofNat 16 (max s.i.toNat 0x1000))) })

/-- R135, R136: Fx65 loads V0 to Vx from `I` on, or faults and loads nothing; `I` is unchanged. Rests on the spec's
decisions D11 and D20. -/
def Obligations.RegistersLoaded : Prop :=
  ∀ (x : RegIx) (s : State),
    (s.i.toNat + x.toNat ≤ 0xFFF →
      ∃ t, exec (.ldVxMem x) s = .next t ∧
        CompletesWith { regs := fun r => r.toNat ≤ x.toNat } s t ∧ t.pc = s.pc + 2#16 ∧
        ∀ r : RegIx, r.toNat ≤ x.toNat → t.reg r = s.mem.read (s.i.toNat + r.toNat)) ∧
    (0xFFF < s.i.toNat + x.toNat →
      exec (.ldVxMem x) s = .next { s with run := .faulted (.memFault (BitVec.ofNat 16 (max s.i.toNat 0x1000))) })

/-- R134, R135, R51: after Fx55, Fx65 with the same `x` and `I` brings back the stored registers, whatever the
registers held in between. -/
def Obligations.LoadRestoresStoredRegisters : Prop :=
  ∀ (x : RegIx) (s t t' : State), s.mem.wf = true → s.i.toNat + x.toNat ≤ 0xFFF →
    exec (.ldMemVx x) s = .next t → t'.mem = t.mem → t'.i = s.i →
    ∃ u, exec (.ldVxMem x) t' = .next u ∧ (∀ r : RegIx, r.toNat ≤ x.toNat → u.reg r = s.reg r) ∧
      ∀ r : RegIx, x.toNat < r.toNat → u.reg r = t'.reg r

/-! ## Display -/

/-- R140: 00E0, the word 0x00E0 exactly (the spec's decision D8, log entry 11), turns every pixel off and writes
nothing else, VF included. The tick is its decision D13 (log entry 13). -/
def Obligations.ClearTurnsPixelsOff : Prop :=
  (∀ w : Word, decodeWord w = some .cls ↔ w = 0x00E0#16) ∧
  ∀ s : State, ∃ t, exec .cls s = .next t ∧ CompletesWith { disp := True } s t ∧ t.pc = s.pc + 2#16 ∧
    ∀ r c, t.pixel r c = false

/-- R141: Dxyn flips exactly the pixels its sprite lights inside the grid, and sets VF := 1 exactly when one of
them was on; it faults when its `n >= 1` bytes are not all in memory. Rests on the spec's decision D12. -/
def Obligations.DrawFlipsSpritePixels : Prop :=
  ∀ (x y : RegIx) (n : Nibble) (s : State),
    ((n = 0#4 ∨ s.i.toNat + n.toNat - 1 ≤ 0xFFF) →
      ∃ t, exec (.drwVxVyN x y n) s = .next t ∧
        CompletesWith { regs := fun r => r = regVF, disp := True } s t ∧ t.pc = s.pc + 2#16 ∧
        (∀ r c, t.pixel r c = (s.pixel r c != spriteLit s x y n r c)) ∧
        ((t.reg regVF).toNat = 0 ∨ (t.reg regVF).toNat = 1) ∧
        ((t.reg regVF).toNat = 1 ↔ ∃ (r : Fin 32) (c : Fin 64), spriteLit s x y n r c = true ∧ s.pixel r c = true)) ∧
    ((n ≠ 0#4 ∧ 0xFFF < s.i.toNat + n.toNat - 1) →
      exec (.drwVxVyN x y n) s =
        .next { s with run := .faulted (.memFault (BitVec.ofNat 16 (max s.i.toNat 0x1000))) })

/-- R142: the same sprite drawn twice at the same position restores the display, and after the second draw VF = 1
exactly when some visible 1 bit landed on a pixel that was off before the first draw. -/
def Obligations.DoubleDrawRestoresDisplay : Prop :=
  ∀ (x y : RegIx) (n : Nibble) (s t : State),
    (n = 0#4 ∨ s.i.toNat + n.toNat - 1 ≤ 0xFFF) → exec (.drwVxVyN x y n) s = .next t →
    t.reg x = s.reg x → t.reg y = s.reg y →
    ∃ u, exec (.drwVxVyN x y n) t = .next u ∧ (∀ r c, u.pixel r c = s.pixel r c) ∧
      ((u.reg regVF).toNat = 1 ↔ ∃ (r : Fin 32) (c : Fin 64), spriteLit s x y n r c = true ∧ t.pixel r c = true) ∧
      ((u.reg regVF).toNat = 1 ↔ ∃ (r : Fin 32) (c : Fin 64), spriteLit s x y n r c = true ∧ s.pixel r c = false)

/-! ## Keys and timers -/

/-- R150, R151, R152: Ex9E skips when the key numbered Vx is held, ExA1 when it is not; a number above 15 names no
key and counts as not held (the spec's decision D15). -/
def Obligations.KeySkips : Prop :=
  ∀ (x : RegIx) (s : State),
    (KeyHeld s x →
      (∃ t, exec (.skpVx x) s = .next t ∧ CompletesWith {} s t ∧ t.pc = s.pc + 4#16) ∧
      (∃ t, exec (.sknpVx x) s = .next t ∧ CompletesWith {} s t ∧ t.pc = s.pc + 2#16)) ∧
    (¬ KeyHeld s x →
      (∃ t, exec (.skpVx x) s = .next t ∧ CompletesWith {} s t ∧ t.pc = s.pc + 2#16) ∧
      (∃ t, exec (.sknpVx x) s = .next t ∧ CompletesWith {} s t ∧ t.pc = s.pc + 4#16))

/-- R153: Fx0A parks and writes nothing else, whatever keys are held; R154: the next key press completes it: Vx is
the key's number, `pc` advances by 2, the timers tick once and the core runs again. Rests on the spec's D14. -/
def Obligations.KeyWaitParksThenCompletes : Prop :=
  ∀ (x : RegIx) (s : State),
    exec (.ldVxK x) s = .next { s with run := .awaitingKey x } ∧
    ∀ k : Nibble,
      CompletesWith { regs := fun r => r = x } { s with run := .running }
        ({ s with run := .awaitingKey x }.keyPress k) ∧
      ({ s with run := .awaitingKey x }.keyPress k).pc = s.pc + 2#16 ∧
      (({ s with run := .awaitingKey x }.keyPress k).reg x).toNat = k.toNat

/-- R154: a `key_press` event completes a parked Fx0A and is dropped in every other run state. Rests on the spec's
decision D14. -/
def Obligations.KeyPressOnlyResumesParked : Prop :=
  ∀ (s : State) (k : Nibble),
    (∀ wx, s.run = .awaitingKey wx → ∃ t, s.hostEvent (.keyPress k) = .pressed t ∧
      CompletesWith { regs := fun r => r = wx } { s with run := .running } t ∧ t.pc = s.pc + 2#16 ∧
      (t.reg wx).toNat = k.toNat) ∧
    ((∀ wx, s.run ≠ .awaitingKey wx) → s.hostEvent (.keyPress k) = .pressed s)

/-- R155, R156, R157: Fx07 reads DT before the tick; Fx15 and Fx18 write a timer, which the tick of the same step
then counts down. The tick is the spec's decision D13. -/
def Obligations.TimerTransfers : Prop :=
  ∀ (x : RegIx) (s : State),
    (∃ t, exec (.ldVxDt x) s = .next t ∧ CompletesWith { regs := fun r => r = x } s t ∧ t.pc = s.pc + 2#16 ∧
      t.reg x = s.dt) ∧
    (∃ t, exec (.ldDtVx x) s = .next t ∧ CompletesWith { dt := True } s t ∧ t.pc = s.pc + 2#16 ∧
      t.dt.toNat = (s.reg x).toNat - 1) ∧
    (∃ t, exec (.ldStVx x) s = .next t ∧ CompletesWith { st := True } s t ∧ t.pc = s.pc + 2#16 ∧
      t.st.toNat = (s.reg x).toNat - 1)
end

