-- ==== Sys2Proof/Laws/State.lean ====
section
/-! SUPPORT. What each named update of the state does to each field: one lemma per field and update, and to each register and pixel. -/

namespace Sys2Proof.Machine

variable (s : State)

/-! ## `setReg` -/

@[simp] theorem State.setReg_v (x : RegIx) (b : Byte) : (s.setReg x b).v = s.v.set x.toNat b x.isLt := rfl
@[simp] theorem State.setReg_i (x : RegIx) (b : Byte) : (s.setReg x b).i = s.i := rfl
@[simp] theorem State.setReg_pc (x : RegIx) (b : Byte) : (s.setReg x b).pc = s.pc := rfl
@[simp] theorem State.setReg_stack (x : RegIx) (b : Byte) : (s.setReg x b).stack = s.stack := rfl
@[simp] theorem State.setReg_mem (x : RegIx) (b : Byte) : (s.setReg x b).mem = s.mem := rfl
@[simp] theorem State.setReg_disp (x : RegIx) (b : Byte) : (s.setReg x b).disp = s.disp := rfl
@[simp] theorem State.setReg_dt (x : RegIx) (b : Byte) : (s.setReg x b).dt = s.dt := rfl
@[simp] theorem State.setReg_st (x : RegIx) (b : Byte) : (s.setReg x b).st = s.st := rfl
@[simp] theorem State.setReg_run (x : RegIx) (b : Byte) : (s.setReg x b).run = s.run := rfl
@[simp] theorem State.setReg_params (x : RegIx) (b : Byte) : (s.setReg x b).params = s.params := rfl
@[simp] theorem State.setReg_inputs (x : RegIx) (b : Byte) : (s.setReg x b).inputs = s.inputs := rfl
@[simp] theorem State.setReg_draws (x : RegIx) (b : Byte) : (s.setReg x b).draws = s.draws := rfl

/-! ## `setFlag` -/

@[simp] theorem State.setFlag_v (cond : Bool) : (s.setFlag cond).v = s.v.set 15 (flagByte cond) := rfl
@[simp] theorem State.setFlag_i (cond : Bool) : (s.setFlag cond).i = s.i := rfl
@[simp] theorem State.setFlag_pc (cond : Bool) : (s.setFlag cond).pc = s.pc := rfl
@[simp] theorem State.setFlag_stack (cond : Bool) : (s.setFlag cond).stack = s.stack := rfl
@[simp] theorem State.setFlag_mem (cond : Bool) : (s.setFlag cond).mem = s.mem := rfl
@[simp] theorem State.setFlag_disp (cond : Bool) : (s.setFlag cond).disp = s.disp := rfl
@[simp] theorem State.setFlag_dt (cond : Bool) : (s.setFlag cond).dt = s.dt := rfl
@[simp] theorem State.setFlag_st (cond : Bool) : (s.setFlag cond).st = s.st := rfl
@[simp] theorem State.setFlag_run (cond : Bool) : (s.setFlag cond).run = s.run := rfl
@[simp] theorem State.setFlag_params (cond : Bool) : (s.setFlag cond).params = s.params := rfl
@[simp] theorem State.setFlag_inputs (cond : Bool) : (s.setFlag cond).inputs = s.inputs := rfl
@[simp] theorem State.setFlag_draws (cond : Bool) : (s.setFlag cond).draws = s.draws := rfl

/-! ## `setRegRange` -/

@[simp] theorem State.setRegRange_v (bytes : List Byte) : (s.setRegRange bytes).v = loadFrom 0 bytes s.v := rfl
@[simp] theorem State.setRegRange_i (bytes : List Byte) : (s.setRegRange bytes).i = s.i := rfl
@[simp] theorem State.setRegRange_pc (bytes : List Byte) : (s.setRegRange bytes).pc = s.pc := rfl
@[simp] theorem State.setRegRange_stack (bytes : List Byte) : (s.setRegRange bytes).stack = s.stack := rfl
@[simp] theorem State.setRegRange_mem (bytes : List Byte) : (s.setRegRange bytes).mem = s.mem := rfl
@[simp] theorem State.setRegRange_disp (bytes : List Byte) : (s.setRegRange bytes).disp = s.disp := rfl
@[simp] theorem State.setRegRange_dt (bytes : List Byte) : (s.setRegRange bytes).dt = s.dt := rfl
@[simp] theorem State.setRegRange_st (bytes : List Byte) : (s.setRegRange bytes).st = s.st := rfl
@[simp] theorem State.setRegRange_run (bytes : List Byte) : (s.setRegRange bytes).run = s.run := rfl
@[simp] theorem State.setRegRange_params (bytes : List Byte) : (s.setRegRange bytes).params = s.params := rfl
@[simp] theorem State.setRegRange_inputs (bytes : List Byte) : (s.setRegRange bytes).inputs = s.inputs := rfl
@[simp] theorem State.setRegRange_draws (bytes : List Byte) : (s.setRegRange bytes).draws = s.draws := rfl

/-! ## `shiftRight` -/

@[simp] theorem State.shiftRight_v (x : RegIx) : (s.shiftRight x).v = s.v.set x.toNat (s.reg x >>> 1) x.isLt := rfl
@[simp] theorem State.shiftRight_i (x : RegIx) : (s.shiftRight x).i = s.i := rfl
@[simp] theorem State.shiftRight_pc (x : RegIx) : (s.shiftRight x).pc = s.pc := rfl
@[simp] theorem State.shiftRight_stack (x : RegIx) : (s.shiftRight x).stack = s.stack := rfl
@[simp] theorem State.shiftRight_mem (x : RegIx) : (s.shiftRight x).mem = s.mem := rfl
@[simp] theorem State.shiftRight_disp (x : RegIx) : (s.shiftRight x).disp = s.disp := rfl
@[simp] theorem State.shiftRight_dt (x : RegIx) : (s.shiftRight x).dt = s.dt := rfl
@[simp] theorem State.shiftRight_st (x : RegIx) : (s.shiftRight x).st = s.st := rfl
@[simp] theorem State.shiftRight_run (x : RegIx) : (s.shiftRight x).run = s.run := rfl
@[simp] theorem State.shiftRight_params (x : RegIx) : (s.shiftRight x).params = s.params := rfl
@[simp] theorem State.shiftRight_inputs (x : RegIx) : (s.shiftRight x).inputs = s.inputs := rfl
@[simp] theorem State.shiftRight_draws (x : RegIx) : (s.shiftRight x).draws = s.draws := rfl

/-! ## `shiftLeft` -/

@[simp] theorem State.shiftLeft_v (x : RegIx) : (s.shiftLeft x).v = s.v.set x.toNat (s.reg x <<< 1) x.isLt := rfl
@[simp] theorem State.shiftLeft_i (x : RegIx) : (s.shiftLeft x).i = s.i := rfl
@[simp] theorem State.shiftLeft_pc (x : RegIx) : (s.shiftLeft x).pc = s.pc := rfl
@[simp] theorem State.shiftLeft_stack (x : RegIx) : (s.shiftLeft x).stack = s.stack := rfl
@[simp] theorem State.shiftLeft_mem (x : RegIx) : (s.shiftLeft x).mem = s.mem := rfl
@[simp] theorem State.shiftLeft_disp (x : RegIx) : (s.shiftLeft x).disp = s.disp := rfl
@[simp] theorem State.shiftLeft_dt (x : RegIx) : (s.shiftLeft x).dt = s.dt := rfl
@[simp] theorem State.shiftLeft_st (x : RegIx) : (s.shiftLeft x).st = s.st := rfl
@[simp] theorem State.shiftLeft_run (x : RegIx) : (s.shiftLeft x).run = s.run := rfl
@[simp] theorem State.shiftLeft_params (x : RegIx) : (s.shiftLeft x).params = s.params := rfl
@[simp] theorem State.shiftLeft_inputs (x : RegIx) : (s.shiftLeft x).inputs = s.inputs := rfl
@[simp] theorem State.shiftLeft_draws (x : RegIx) : (s.shiftLeft x).draws = s.draws := rfl

/-! ## `subtractFrom` -/

@[simp] theorem State.subtractFrom_v (x y : RegIx) : (s.subtractFrom x y).v = s.v.set x.toNat (s.reg y - s.reg x) x.isLt := rfl
@[simp] theorem State.subtractFrom_i (x y : RegIx) : (s.subtractFrom x y).i = s.i := rfl
@[simp] theorem State.subtractFrom_pc (x y : RegIx) : (s.subtractFrom x y).pc = s.pc := rfl
@[simp] theorem State.subtractFrom_stack (x y : RegIx) : (s.subtractFrom x y).stack = s.stack := rfl
@[simp] theorem State.subtractFrom_mem (x y : RegIx) : (s.subtractFrom x y).mem = s.mem := rfl
@[simp] theorem State.subtractFrom_disp (x y : RegIx) : (s.subtractFrom x y).disp = s.disp := rfl
@[simp] theorem State.subtractFrom_dt (x y : RegIx) : (s.subtractFrom x y).dt = s.dt := rfl
@[simp] theorem State.subtractFrom_st (x y : RegIx) : (s.subtractFrom x y).st = s.st := rfl
@[simp] theorem State.subtractFrom_run (x y : RegIx) : (s.subtractFrom x y).run = s.run := rfl
@[simp] theorem State.subtractFrom_params (x y : RegIx) : (s.subtractFrom x y).params = s.params := rfl
@[simp] theorem State.subtractFrom_inputs (x y : RegIx) : (s.subtractFrom x y).inputs = s.inputs := rfl
@[simp] theorem State.subtractFrom_draws (x y : RegIx) : (s.subtractFrom x y).draws = s.draws := rfl

/-! ## `tick` -/

@[simp] theorem State.tick_v : (s.tick).v = s.v := rfl
@[simp] theorem State.tick_i : (s.tick).i = s.i := rfl
@[simp] theorem State.tick_pc : (s.tick).pc = s.pc := rfl
@[simp] theorem State.tick_stack : (s.tick).stack = s.stack := rfl
@[simp] theorem State.tick_mem : (s.tick).mem = s.mem := rfl
@[simp] theorem State.tick_disp : (s.tick).disp = s.disp := rfl
@[simp] theorem State.tick_dt : (s.tick).dt = countDown s.dt := rfl
@[simp] theorem State.tick_st : (s.tick).st = countDown s.st := rfl
@[simp] theorem State.tick_run : (s.tick).run = s.run := rfl
@[simp] theorem State.tick_params : (s.tick).params = s.params := rfl
@[simp] theorem State.tick_inputs : (s.tick).inputs = s.inputs := rfl
@[simp] theorem State.tick_draws : (s.tick).draws = s.draws := rfl

/-! ## `complete` -/

@[simp] theorem State.complete_v (npc : Word) : (s.complete npc).v = s.v := rfl
@[simp] theorem State.complete_i (npc : Word) : (s.complete npc).i = s.i := rfl
@[simp] theorem State.complete_pc (npc : Word) : (s.complete npc).pc = npc := rfl
@[simp] theorem State.complete_stack (npc : Word) : (s.complete npc).stack = s.stack := rfl
@[simp] theorem State.complete_mem (npc : Word) : (s.complete npc).mem = s.mem := rfl
@[simp] theorem State.complete_disp (npc : Word) : (s.complete npc).disp = s.disp := rfl
@[simp] theorem State.complete_dt (npc : Word) : (s.complete npc).dt = countDown s.dt := rfl
@[simp] theorem State.complete_st (npc : Word) : (s.complete npc).st = countDown s.st := rfl
@[simp] theorem State.complete_run (npc : Word) : (s.complete npc).run = s.run := rfl
@[simp] theorem State.complete_params (npc : Word) : (s.complete npc).params = s.params := rfl
@[simp] theorem State.complete_inputs (npc : Word) : (s.complete npc).inputs = s.inputs := rfl
@[simp] theorem State.complete_draws (npc : Word) : (s.complete npc).draws = s.draws := rfl

/-! ## `raise` -/

@[simp] theorem State.raise_v (f : Fault) : (s.raise f).v = s.v := rfl
@[simp] theorem State.raise_i (f : Fault) : (s.raise f).i = s.i := rfl
@[simp] theorem State.raise_pc (f : Fault) : (s.raise f).pc = s.pc := rfl
@[simp] theorem State.raise_stack (f : Fault) : (s.raise f).stack = s.stack := rfl
@[simp] theorem State.raise_mem (f : Fault) : (s.raise f).mem = s.mem := rfl
@[simp] theorem State.raise_disp (f : Fault) : (s.raise f).disp = s.disp := rfl
@[simp] theorem State.raise_dt (f : Fault) : (s.raise f).dt = s.dt := rfl
@[simp] theorem State.raise_st (f : Fault) : (s.raise f).st = s.st := rfl
@[simp] theorem State.raise_run (f : Fault) : (s.raise f).run = .faulted f := rfl
@[simp] theorem State.raise_params (f : Fault) : (s.raise f).params = s.params := rfl
@[simp] theorem State.raise_inputs (f : Fault) : (s.raise f).inputs = s.inputs := rfl
@[simp] theorem State.raise_draws (f : Fault) : (s.raise f).draws = s.draws := rfl

/-! ## `consumeInput` -/

@[simp] theorem State.consumeInput_v : (s.consumeInput).v = s.v := rfl
@[simp] theorem State.consumeInput_i : (s.consumeInput).i = s.i := rfl
@[simp] theorem State.consumeInput_pc : (s.consumeInput).pc = s.pc := rfl
@[simp] theorem State.consumeInput_stack : (s.consumeInput).stack = s.stack := rfl
@[simp] theorem State.consumeInput_mem : (s.consumeInput).mem = s.mem := rfl
@[simp] theorem State.consumeInput_disp : (s.consumeInput).disp = s.disp := rfl
@[simp] theorem State.consumeInput_dt : (s.consumeInput).dt = s.dt := rfl
@[simp] theorem State.consumeInput_st : (s.consumeInput).st = s.st := rfl
@[simp] theorem State.consumeInput_run : (s.consumeInput).run = s.run := rfl
@[simp] theorem State.consumeInput_params : (s.consumeInput).params = s.params := rfl
@[simp] theorem State.consumeInput_inputs : (s.consumeInput).inputs = s.inputs.tail := rfl
@[simp] theorem State.consumeInput_draws : (s.consumeInput).draws = s.draws + 1 := rfl

/-! ## `placeWord` -/

@[simp] theorem State.placeWord_v (w : Word) : (s.placeWord w).v = s.v := rfl
@[simp] theorem State.placeWord_i (w : Word) : (s.placeWord w).i = s.i := rfl
@[simp] theorem State.placeWord_pc (w : Word) : (s.placeWord w).pc = s.pc := rfl
@[simp] theorem State.placeWord_stack (w : Word) : (s.placeWord w).stack = s.stack := rfl
@[simp] theorem State.placeWord_mem (w : Word) : (s.placeWord w).mem = s.mem.writeBytes s.pc.toNat (bytesOfWord w) := rfl
@[simp] theorem State.placeWord_disp (w : Word) : (s.placeWord w).disp = s.disp := rfl
@[simp] theorem State.placeWord_dt (w : Word) : (s.placeWord w).dt = s.dt := rfl
@[simp] theorem State.placeWord_st (w : Word) : (s.placeWord w).st = s.st := rfl
@[simp] theorem State.placeWord_run (w : Word) : (s.placeWord w).run = .running := rfl
@[simp] theorem State.placeWord_params (w : Word) : (s.placeWord w).params = s.params := rfl
@[simp] theorem State.placeWord_inputs (w : Word) : (s.placeWord w).inputs = s.inputs := rfl
@[simp] theorem State.placeWord_draws (w : Word) : (s.placeWord w).draws = s.draws := rfl

/-! ## Registers -/

/-- The register file after one write: the written register, and every other as before. -/
@[simp] theorem State.reg_setReg (x r : RegIx) (b : Byte) :
    (s.setReg x b).reg r = if r = x then b else s.reg r := by
  simp only [State.reg, State.setReg, Vector.getElem_set, BitVec.toNat_inj, eq_comm]

@[simp] theorem State.reg_setFlag (r : RegIx) (cond : Bool) :
    (s.setFlag cond).reg r = if r = regVF then flagByte cond else s.reg r := s.reg_setReg regVF r _

@[simp] theorem State.reg_shiftRight (x r : RegIx) :
    (s.shiftRight x).reg r = if r = x then s.reg x >>> 1 else s.reg r := s.reg_setReg x r _

@[simp] theorem State.reg_shiftLeft (x r : RegIx) :
    (s.shiftLeft x).reg r = if r = x then s.reg x <<< 1 else s.reg r := s.reg_setReg x r _

@[simp] theorem State.reg_subtractFrom (x y r : RegIx) :
    (s.subtractFrom x y).reg r = if r = x then s.reg y - s.reg x else s.reg r := s.reg_setReg x r _

/-- A register is a function of the register file alone. -/
theorem State.reg_congr {s t : State} (h : t.v = s.v) (r : RegIx) : t.reg r = s.reg r := by
  simp only [State.reg, h]

/-- A pixel is a function of the display alone. -/
theorem State.pixel_congr {s t : State} (h : t.disp = s.disp) (r : Fin 32) (c : Fin 64) : t.pixel r c = s.pixel r c := by
  simp only [State.pixel, h]

@[simp] theorem State.reg_tick (r : RegIx) : (s.tick).reg r = s.reg r := rfl
@[simp] theorem State.reg_complete (r : RegIx) (npc : Word) : (s.complete npc).reg r = s.reg r := rfl
@[simp] theorem State.reg_raise (r : RegIx) (f : Fault) : (s.raise f).reg r = s.reg r := rfl
@[simp] theorem State.reg_consumeInput (r : RegIx) : (s.consumeInput).reg r = s.reg r := rfl
@[simp] theorem State.reg_placeWord (r : RegIx) (w : Word) : (s.placeWord w).reg r = s.reg r := rfl

/-! ## Pixels and inputs -/

@[simp] theorem State.pixel_setReg (r : Fin 32) (c : Fin 64) (x : RegIx) (b : Byte) : (s.setReg x b).pixel r c = s.pixel r c := rfl
@[simp] theorem State.pixel_setFlag (r : Fin 32) (c : Fin 64) (cond : Bool) : (s.setFlag cond).pixel r c = s.pixel r c := rfl
@[simp] theorem State.pixel_setRegRange (r : Fin 32) (c : Fin 64) (bytes : List Byte) : (s.setRegRange bytes).pixel r c = s.pixel r c := rfl
@[simp] theorem State.pixel_shiftRight (r : Fin 32) (c : Fin 64) (x : RegIx) : (s.shiftRight x).pixel r c = s.pixel r c := rfl
@[simp] theorem State.pixel_shiftLeft (r : Fin 32) (c : Fin 64) (x : RegIx) : (s.shiftLeft x).pixel r c = s.pixel r c := rfl
@[simp] theorem State.pixel_subtractFrom (r : Fin 32) (c : Fin 64) (x y : RegIx) : (s.subtractFrom x y).pixel r c = s.pixel r c := rfl
@[simp] theorem State.pixel_tick (r : Fin 32) (c : Fin 64) : (s.tick).pixel r c = s.pixel r c := rfl
@[simp] theorem State.pixel_complete (r : Fin 32) (c : Fin 64) (npc : Word) : (s.complete npc).pixel r c = s.pixel r c := rfl
@[simp] theorem State.pixel_raise (r : Fin 32) (c : Fin 64) (f : Fault) : (s.raise f).pixel r c = s.pixel r c := rfl
@[simp] theorem State.pixel_consumeInput (r : Fin 32) (c : Fin 64) : (s.consumeInput).pixel r c = s.pixel r c := rfl
@[simp] theorem State.pixel_placeWord (r : Fin 32) (c : Fin 64) (w : Word) : (s.placeWord w).pixel r c = s.pixel r c := rfl

@[simp] theorem State.input_setReg (x : RegIx) (b : Byte) : (s.setReg x b).input = s.input := rfl
@[simp] theorem State.input_setFlag (cond : Bool) : (s.setFlag cond).input = s.input := rfl
@[simp] theorem State.input_setRegRange (bytes : List Byte) : (s.setRegRange bytes).input = s.input := rfl
@[simp] theorem State.input_shiftRight (x : RegIx) : (s.shiftRight x).input = s.input := rfl
@[simp] theorem State.input_shiftLeft (x : RegIx) : (s.shiftLeft x).input = s.input := rfl
@[simp] theorem State.input_subtractFrom (x y : RegIx) : (s.subtractFrom x y).input = s.input := rfl
@[simp] theorem State.input_tick : (s.tick).input = s.input := rfl
@[simp] theorem State.input_complete (npc : Word) : (s.complete npc).input = s.input := rfl
@[simp] theorem State.input_raise (f : Fault) : (s.raise f).input = s.input := rfl
@[simp] theorem State.input_placeWord (w : Word) : (s.placeWord w).input = s.input := rfl

end Sys2Proof.Machine
end

