-- ==== Sys2Proof/Laws/Display.lean ====
section
/-! SUPPORT. What the sprite blitter does, pixel by pixel: each loop of spec/44_display.md R141 flips the pixels its 1 bits fall on, and reports a collision when one of them was on. -/

namespace Sys2Proof.Machine

/-- A 1 bit at row `r`, column `c`: that pixel flips, every other stays. -/
theorem disp_blitPixel (r c : Nat) (acc : Blit) (r' c' : Nat) (hr : r' < 32) (hc : c' < 64) :
    (blitPixel r c acc).disp[r'][c'] = (acc.disp[r'][c'] ^^ decide (r' = r ∧ c' = c)) := by
  unfold blitPixel
  split
  · simp only [Vector.getElem_set]
    by_cases h1 : r = r'
    · subst h1
      by_cases h2 : c = c'
      · subst h2; simp
      · simp [h2, Ne.symm h2]
    · simp [h1, Ne.symm h1]
  · next h =>
    have : ¬ (r' = r ∧ c' = c) := by rintro ⟨rfl, rfl⟩; exact h ⟨hr, hc⟩
    simp [this]

/-- A 1 bit collides when its pixel is inside the grid and on. -/
theorem collision_blitPixel (r c : Nat) (acc : Blit) :
    (blitPixel r c acc).collision = true ↔
      acc.collision = true ∨ ∃ (hr : r < 32) (hc : c < 64), acc.disp[r][c] = true := by
  unfold blitPixel
  split
  · next h => simp [h.1, h.2]
  · next h =>
    constructor
    · exact .inl
    · rintro (h' | ⟨hr, hc, -⟩)
      · exact h'
      · exact absurd ⟨hr, hc⟩ h

/-- The first `n` bits of a sprite row. -/
def blitBits (n r x0 : Nat) (b : Byte) (acc : Blit) : Blit :=
  (List.range n).foldl (fun acc j => if b.getLsbD (7 - j) then blitPixel r (x0 + j) acc else acc) acc

theorem blitRow_eq_blitBits (r x0 : Nat) (b : Byte) (acc : Blit) : blitRow r x0 b acc = blitBits 8 r x0 b acc := rfl

theorem blitBits_succ (n r x0 : Nat) (b : Byte) (acc : Blit) :
    blitBits (n + 1) r x0 b acc =
      if b.getLsbD (7 - n) then blitPixel r (x0 + n) (blitBits n r x0 b acc) else blitBits n r x0 b acc := by
  simp [blitBits, List.range_succ]

/-- Some bits of a row flip the pixels of their 1 bits in row `r`. -/
theorem disp_blitBits (n r x0 : Nat) (b : Byte) (acc : Blit) (r' c' : Nat) (hr : r' < 32) (hc : c' < 64) :
    (blitBits n r x0 b acc).disp[r'][c'] =
      (acc.disp[r'][c'] ^^ (decide (r' = r ∧ x0 ≤ c' ∧ c' < x0 + n) && b.getLsbD (7 - (c' - x0)))) := by
  induction n with
  | zero =>
    have : ¬ (r' = r ∧ x0 ≤ c' ∧ c' < x0 + 0) := by omega
    rw [decide_eq_false this, Bool.false_and, Bool.xor_false]
    rfl
  | succ n ih =>
    rw [blitBits_succ]
    by_cases hat : r' = r ∧ c' = x0 + n
    · obtain ⟨rfl, rfl⟩ := hat
      split
      · next hb => rw [disp_blitPixel, ih]; simp [hb]
      · next hb => rw [ih]; simp [hb]
    · have hsame : (r' = r ∧ x0 ≤ c' ∧ c' < x0 + (n + 1)) ↔ (r' = r ∧ x0 ≤ c' ∧ c' < x0 + n) := by omega
      simp only [hsame]
      split
      · rw [disp_blitPixel, ih]; simp [hat]
      · exact ih

/-- Some bits of a row collide when one of their 1 bits falls on a pixel that was on. -/
theorem collision_blitBits (n r x0 : Nat) (b : Byte) (acc : Blit) :
    (blitBits n r x0 b acc).collision = true ↔
      acc.collision = true ∨ ∃ (hr : r < 32) (c : Fin 64), x0 ≤ c.val ∧ c.val < x0 + n ∧
        b.getLsbD (7 - (c.val - x0)) = true ∧ acc.disp[r][c.val] = true := by
  induction n with
  | zero =>
    have : ∀ c : Fin 64, x0 ≤ c.val → ¬ c.val < x0 := fun c h => by omega
    simp only [blitBits, List.range_zero, List.foldl_nil, Nat.add_zero]
    constructor
    · exact .inl
    · rintro (h | ⟨-, c, h1, h2, -⟩)
      · exact h
      · exact absurd h2 (this c h1)
  | succ n ih =>
    rw [blitBits_succ]
    split
    · next hb =>
      rw [collision_blitPixel, ih]
      constructor
      · rintro ((h | ⟨hr, c, h1, h2, h3⟩) | ⟨hr, hc, h⟩)
        · exact .inl h
        · exact .inr ⟨hr, c, h1, by omega, h3⟩
        · rw [disp_blitBits _ _ _ _ _ _ _ hr hc] at h
          have h0 : ¬ (x0 + n < x0 + n) := by omega
          exact .inr ⟨hr, ⟨x0 + n, hc⟩, by simp, by simp, by simpa using hb, by simpa [h0] using h⟩
      · rintro (h | ⟨hr, c, h1, h2, h3, h4⟩)
        · exact .inl (.inl h)
        · by_cases hc : c.val = x0 + n
          · refine .inr ⟨hr, by omega, ?_⟩
            rw [disp_blitBits _ _ _ _ _ _ _ hr (by omega)]
            have h0 : ¬ (x0 + n < x0 + n) := by omega
            simpa [h0, hc] using h4
          · exact .inl (.inr ⟨hr, c, h1, by omega, h3, h4⟩)
    · next hb =>
      rw [ih]
      constructor
      · rintro (h | ⟨hr, c, h1, h2, h3⟩)
        · exact .inl h
        · exact .inr ⟨hr, c, h1, by omega, h3⟩
      · rintro (h | ⟨hr, c, h1, h2, h3, h4⟩)
        · exact .inl h
        · have : c.val ≠ x0 + n := by
            intro hc
            rw [hc, Nat.add_sub_cancel_left] at h3
            exact hb h3
          exact .inr ⟨hr, c, h1, by omega, h3, h4⟩

/-- Whether the rows of a sprite, placed with its top left bit at row `r0` and column `x0`, have a 1 bit on the
pixel of row `r` and column `c`. -/
def rowsLit (r0 x0 : Nat) (rows : List Byte) (r c : Nat) : Bool :=
  decide (r0 ≤ r ∧ r < r0 + rows.length ∧ x0 ≤ c ∧ c < x0 + 8) &&
    (rows.getD (r - r0) 0x00#8).getLsbD (7 - (c - x0))

/-- Outside the rows of the sprite nothing is lit. -/
theorem rowsLit_of_not {r0 x0 : Nat} {rows : List Byte} {r c : Nat} (h : ¬ (r0 ≤ r ∧ r < r0 + rows.length)) :
    rowsLit r0 x0 rows r c = false := by
  rw [rowsLit, decide_eq_false (fun hin => h ⟨hin.1, hin.2.1⟩), Bool.false_and]

theorem rowsLit_nil (r0 x0 r c : Nat) : rowsLit r0 x0 [] r c = false :=
  rowsLit_of_not (by simp only [List.length_nil]; omega)

/-- The first row, and the rest one row further down. -/
theorem rowsLit_cons (r0 x0 : Nat) (b : Byte) (bs : List Byte) (r c : Nat) :
    rowsLit r0 x0 (b :: bs) r c =
      ((decide (r = r0 ∧ x0 ≤ c ∧ c < x0 + 8) && b.getLsbD (7 - (c - x0))) ^^ rowsLit (r0 + 1) x0 bs r c) := by
  by_cases h0 : r = r0
  · subst h0
    rw [rowsLit_of_not (r0 := r + 1) (by omega)]
    simp [rowsLit]
  · by_cases h1 : r0 + 1 ≤ r
    · obtain ⟨j, rfl⟩ : ∃ j, r = r0 + (j + 1) := ⟨r - r0 - 1, by omega⟩
      have h2 : r0 + (j + 1) - (r0 + 1) = j := by omega
      have h3 : (r0 ≤ r0 + (j + 1) ∧ r0 + (j + 1) < r0 + (b :: bs).length ∧ x0 ≤ c ∧ c < x0 + 8) ↔
          (r0 + 1 ≤ r0 + (j + 1) ∧ r0 + (j + 1) < r0 + 1 + bs.length ∧ x0 ≤ c ∧ c < x0 + 8) := by
        simp only [List.length_cons]; omega
      simp only [rowsLit, h3, h2, Nat.add_sub_cancel_left, List.getD_cons_succ]
      simp
    · rw [rowsLit_of_not (r0 := r0) (by omega), rowsLit_of_not (r0 := r0 + 1) (by omega)]
      simp [h0]

/-- The blitter flips exactly the pixels the sprite lights (R141). -/
theorem disp_blitRows (r0 x0 : Nat) (rows : List Byte) (acc : Blit) (r c : Nat) (hr : r < 32) (hc : c < 64) :
    (blitRows r0 x0 rows acc).disp[r][c] = (acc.disp[r][c] ^^ rowsLit r0 x0 rows r c) := by
  induction rows generalizing r0 acc with
  | nil => simp [blitRows, rowsLit_nil]
  | cons b bs ih =>
    rw [blitRows, ih, blitRow_eq_blitBits, disp_blitBits _ _ _ _ _ _ _ hr hc, rowsLit_cons, Bool.xor_assoc]

/-- The blitter reports a collision exactly when the sprite lights a pixel that was on (R141). -/
theorem collision_blitRows (r0 x0 : Nat) (rows : List Byte) (acc : Blit) :
    (blitRows r0 x0 rows acc).collision = true ↔
      acc.collision = true ∨ ∃ (r : Fin 32) (c : Fin 64), rowsLit r0 x0 rows r c = true ∧ acc.disp[r.val][c.val] = true := by
  induction rows generalizing r0 acc with
  | nil => simp [blitRows, rowsLit_nil]
  | cons b bs ih =>
    rw [blitRows, ih, blitRow_eq_blitBits, collision_blitBits]
    constructor
    · rintro ((h | ⟨hr, c, h1, h2, h3, h4⟩) | ⟨r, c, h1, h2⟩)
      · exact .inl h
      · refine .inr ⟨⟨r0, hr⟩, c, ?_, h4⟩
        have h5 : rowsLit (r0 + 1) x0 bs r0 c = false := rowsLit_of_not (by omega)
        simp [rowsLit_cons, h1, h2, h3, h5]
      · have hne : r.val ≠ r0 := by
          intro h
          rw [rowsLit_of_not (by omega)] at h1
          cases h1
        refine .inr ⟨r, c, ?_, ?_⟩
        · simp [rowsLit_cons, hne, h1]
        · rw [disp_blitBits _ _ _ _ _ _ _ r.isLt c.isLt] at h2
          simpa [hne] using h2
    · rintro (h | ⟨r, c, h1, h2⟩)
      · exact .inl (.inl h)
      · by_cases hr : r.val = r0
        · have h5 : rowsLit (r0 + 1) x0 bs r c = false := rowsLit_of_not (by omega)
          rw [rowsLit_cons, h5] at h1
          simp only [Bool.xor_false, Bool.and_eq_true, decide_eq_true_eq] at h1
          refine .inl (.inr ⟨by omega, c, h1.1.2.1, h1.1.2.2, h1.2, ?_⟩)
          simpa [hr] using h2
        · refine .inr ⟨r, c, ?_, ?_⟩
          · rw [rowsLit_cons] at h1
            simpa [hr] using h1
          · rw [disp_blitBits _ _ _ _ _ _ _ r.isLt c.isLt]
            simpa [hr] using h2

end Sys2Proof.Machine
end

