-- ==== Sys2Proof/Laws/Memory.lean ====
section
/-! SUPPORT. The laws of main memory: a read after a write, the canonical form kept by every operation, equal reads of canonical memories make equal memories. -/

namespace Sys2Proof.Machine

/-- Every listed address is above `a`. -/
def Memory.above (m : Memory) (a : Nat) : Prop := ∀ c ∈ m, a < c.1

theorem Memory.above_cons {m : Memory} {a : Nat} {c : Host.Cell} :
    Memory.above (c :: m) a ↔ a < c.1 ∧ Memory.above m a := by
  simp [Memory.above]

theorem Memory.above_mono {m : Memory} {a b : Nat} (h : Memory.above m b) (hab : a ≤ b) : Memory.above m a :=
  fun c hc => lt_of_le_of_lt hab (h c hc)

/-- The canonical form, unfolded: in range, not as unlisted, all later addresses above. -/
theorem Memory.wf_cons {m : Memory} {a : Nat} {b : Byte} :
    Memory.wf ((a, b) :: m) = true ↔
      a < Config.memSize ∧ b ≠ unlistedByte a ∧ Memory.above m a ∧ m.wf = true := by
  induction m generalizing a b with
  | nil => simp [Memory.wf, Memory.above]
  | cons c m ih =>
    obtain ⟨a', b'⟩ := c
    rw [Memory.wf]
    simp only [List.head?_cons, Option.all_some, Bool.and_eq_true, decide_eq_true_eq, bne_iff_ne, Memory.above_cons]
    constructor
    · rintro ⟨⟨⟨h1, h2⟩, h3⟩, h4⟩
      exact ⟨h1, h2, ⟨h3, Memory.above_mono (ih.1 h4).2.2.1 (le_of_lt h3)⟩, h4⟩
    · rintro ⟨h1, h2, ⟨h3, -⟩, h4⟩
      exact ⟨⟨⟨h1, h2⟩, h3⟩, h4⟩

/-- An address below every listed one reads as unlisted. -/
theorem Memory.read_of_above {m : Memory} {a : Nat} (h : Memory.above m a) : m.read a = unlistedByte a := by
  induction m with
  | nil => rfl
  | cons c m ih =>
    obtain ⟨a', b'⟩ := c
    rw [Memory.above_cons] at h
    rw [Memory.read, if_neg (by have := h.1; simp at this; omega), ih h.2]

/-- Reading through the cell list of one byte. -/
theorem Memory.read_cellFor_append (m : Memory) (a k : Nat) (b : Byte) (h : Memory.above m a) :
    Memory.read (cellFor a b ++ m) k = if k = a then b else m.read k := by
  unfold cellFor
  split
  · next hb =>
    split
    · next hk => subst hk; simp [Memory.read_of_above h, hb]
    · rfl
  · simp [Memory.read]

/-- A read after a write, in a canonical memory: the written cell, and every other as before (R49). -/
theorem Memory.read_write {m : Memory} (h : m.wf = true) (a k : Nat) (b : Byte) :
    (m.write a b).read k = if k = a then b else m.read k := by
  induction m with
  | nil => simpa [Memory.write] using Memory.read_cellFor_append [] a k b (by simp [Memory.above])
  | cons c m ih =>
    obtain ⟨a', b'⟩ := c
    obtain ⟨-, -, habove, hm⟩ := Memory.wf_cons.1 h
    simp only [Memory.write]
    split
    · next hlt =>
      exact Memory.read_cellFor_append _ _ _ _ (Memory.above_cons.2 ⟨hlt, Memory.above_mono habove (le_of_lt hlt)⟩)
    · split
      · next heq =>
        subst heq
        rw [Memory.read_cellFor_append _ _ _ _ habove]
        simp only [Memory.read]
        split <;> rfl
      · next hge hne =>
        simp only [Memory.read, ih hm]
        by_cases hk : k = a'
        · subst hk; simp [Ne.symm hne]
        · simp [hk]

theorem Memory.read_write_same {m : Memory} (h : m.wf = true) (a : Nat) (b : Byte) : (m.write a b).read a = b := by
  simp [Memory.read_write h]

theorem Memory.read_cellFor_append_other (m : Memory) {a k : Nat} (hk : k ≠ a) (b : Byte) :
    Memory.read (cellFor a b ++ m) k = m.read k := by
  unfold cellFor
  split
  · rfl
  · simp [Memory.read, hk]

/-- A write changes no other cell, whatever form the memory has (R49). -/
theorem Memory.read_write_other (m : Memory) {a k : Nat} (hk : k ≠ a) (b : Byte) : (m.write a b).read k = m.read k := by
  induction m with
  | nil => simpa [Memory.write] using Memory.read_cellFor_append_other [] hk b
  | cons c m ih =>
    obtain ⟨a', b'⟩ := c
    simp only [Memory.write]
    split
    · exact Memory.read_cellFor_append_other _ hk b
    · split
      · next heq => subst heq; rw [Memory.read_cellFor_append_other _ hk]; simp [Memory.read, hk]
      · simp only [Memory.read, ih]

/-- Writing consecutive bytes changes no cell outside them, whatever form the memory has. -/
theorem Memory.read_writeBytes_outside (m : Memory) {addr k : Nat} {bytes : List Byte}
    (hk : k < addr ∨ addr + bytes.length ≤ k) : (m.writeBytes addr bytes).read k = m.read k := by
  induction bytes generalizing m addr with
  | nil => rfl
  | cons b bs ih =>
    simp only [List.length_cons] at hk
    rw [Memory.writeBytes, ih _ (by omega), Memory.read_write_other _ (by omega)]

theorem Memory.above_cellFor_append {m : Memory} {a k : Nat} {b : Byte} (hk : k < a) (h : Memory.above m k) :
    Memory.above (cellFor a b ++ m) k := by
  unfold cellFor
  split
  · simpa using h
  · simpa [Memory.above_cons] using ⟨hk, h⟩

theorem Memory.wf_cellFor_append {m : Memory} {a : Nat} {b : Byte} (ha : a < Config.memSize)
    (habove : Memory.above m a) (h : m.wf = true) : Memory.wf (cellFor a b ++ m) = true := by
  unfold cellFor
  split
  · simpa using h
  · next hb => exact Memory.wf_cons.2 ⟨ha, hb, habove, h⟩

theorem Memory.above_write {m : Memory} {a k : Nat} {b : Byte} (hk : k < a) (h : Memory.above m k) :
    Memory.above (m.write a b) k := by
  induction m with
  | nil => simpa [Memory.write] using Memory.above_cellFor_append (b := b) hk h
  | cons c m ih =>
    obtain ⟨a', b'⟩ := c
    have hc := Memory.above_cons.1 h
    simp only [Memory.write]
    split
    · exact Memory.above_cellFor_append hk h
    · split
      · exact Memory.above_cellFor_append hk hc.2
      · exact Memory.above_cons.2 ⟨hc.1, ih hc.2⟩

/-- A write inside the address space keeps the canonical form. -/
theorem Memory.wf_write {m : Memory} (h : m.wf = true) {a : Nat} (ha : a < Config.memSize) (b : Byte) :
    (m.write a b).wf = true := by
  induction m with
  | nil => simpa [Memory.write] using Memory.wf_cellFor_append (b := b) ha (by simp [Memory.above]) h
  | cons c m ih =>
    obtain ⟨a', b'⟩ := c
    obtain ⟨ha', hb', habove, hm⟩ := Memory.wf_cons.1 h
    simp only [Memory.write]
    split
    · next hlt =>
      exact Memory.wf_cellFor_append ha
        (Memory.above_cons.2 ⟨hlt, Memory.above_mono habove (le_of_lt hlt)⟩) h
    · split
      · next heq => subst heq; exact Memory.wf_cellFor_append ha habove hm
      · next hge hne =>
        exact Memory.wf_cons.2 ⟨ha', hb', Memory.above_write (by omega) habove, ih hm⟩

/-- Writing consecutive bytes inside the address space keeps the canonical form. -/
theorem Memory.wf_writeBytes {m : Memory} (h : m.wf = true) {addr : Nat} {bytes : List Byte}
    (ha : addr + bytes.length ≤ Config.memSize) : (m.writeBytes addr bytes).wf = true := by
  induction bytes generalizing m addr with
  | nil => exact h
  | cons b bs ih =>
    simp only [List.length_cons] at ha
    exact ih (Memory.wf_write h (by omega) b) (by omega)

/-- A read after writing consecutive bytes: the written range, and every other cell as before. -/
theorem Memory.read_writeBytes {m : Memory} (h : m.wf = true) {addr : Nat} {bytes : List Byte}
    (ha : addr + bytes.length ≤ Config.memSize) (k : Nat) :
    (m.writeBytes addr bytes).read k =
      if addr ≤ k ∧ k < addr + bytes.length then bytes.getD (k - addr) 0x00#8 else m.read k := by
  induction bytes generalizing m addr with
  | nil => rw [Memory.writeBytes, if_neg (by simp)]
  | cons b bs ih =>
    simp only [List.length_cons] at ha ⊢
    rw [Memory.writeBytes, ih (Memory.wf_write h (by omega) b) (by omega), Memory.read_write h]
    by_cases hk : k = addr
    · subst hk; simp
    · by_cases hin : addr + 1 ≤ k ∧ k < addr + 1 + bs.length
      · obtain ⟨j, rfl⟩ : ∃ j, k = addr + (j + 1) := ⟨k - addr - 1, by omega⟩
        rw [if_pos hin, if_pos (by omega)]
        simp [show addr + (j + 1) - (addr + 1) = j by omega]
      · rw [if_neg hin, if_neg hk, if_neg (by omega)]

@[simp] theorem Memory.length_readBytes (m : Memory) (addr n : Nat) : (m.readBytes addr n).length = n := by
  simp [Memory.readBytes]

/-- The bytes that a multi-byte read returns, one by one. -/
theorem Memory.getElem_readBytes (m : Memory) (addr n k : Nat) (h : k < (m.readBytes addr n).length) :
    (m.readBytes addr n)[k] = m.read (addr + k) := by
  simp [Memory.readBytes]

/-- Canonical memories that read alike everywhere are equal. -/
theorem Memory.ext_of_wf {m m' : Memory} (h : m.wf = true) (h' : m'.wf = true) (hr : ∀ a, m.read a = m'.read a) :
    m = m' := by
  induction m generalizing m' with
  | nil =>
    cases m' with
    | nil => rfl
    | cons c m' =>
      obtain ⟨a, b⟩ := c
      have hb := (Memory.wf_cons.1 h').2.1
      exact absurd (by simpa [Memory.read] using (hr a).symm) hb
  | cons c m ih =>
    obtain ⟨a, b⟩ := c
    obtain ⟨-, hb, habove, hm⟩ := Memory.wf_cons.1 h
    cases m' with
    | nil => exact absurd (by simpa [Memory.read] using hr a) hb
    | cons c' m' =>
      obtain ⟨a', b'⟩ := c'
      obtain ⟨-, hb', habove', hm'⟩ := Memory.wf_cons.1 h'
      have haa : a = a' := by
        rcases Nat.lt_trichotomy a a' with hlt | heq | hgt
        · refine absurd ?_ hb
          have := hr a
          rwa [Memory.read, if_pos rfl, Memory.read_of_above
            (Memory.above_cons.2 ⟨hlt, Memory.above_mono habove' (le_of_lt hlt)⟩)] at this
        · exact heq
        · refine absurd ?_ hb'
          have := hr a'
          rw [Memory.read_of_above (Memory.above_cons.2 ⟨hgt, Memory.above_mono habove (le_of_lt hgt)⟩)] at this
          simpa [Memory.read] using this.symm
      subst haa
      have hbb : b = b' := by simpa [Memory.read] using hr a
      subst hbb
      congr 1
      refine ih hm hm' fun k => ?_
      by_cases hk : k = a
      · subst hk; rw [Memory.read_of_above habove, Memory.read_of_above habove']
      · simpa [Memory.read, hk] using hr k

/-- The reset memory has the canonical form. -/
theorem Memory.wf_reset : State.reset.mem.wf = true := rfl

end Sys2Proof.Machine
end

