-- ==== Sys2Proof/Laws/Ops.lean ====
section
/-! SUPPORT. One lemma per shared operation that says everything it can do: the range check, the stack, the timers, the skip, the fetch, loading registers, taking a fault, completing. -/

namespace Sys2Proof.Machine

/-! ## The range check -/

theorem outOfRange_iff (addr n : Nat) : outOfRange addr n = true ↔ 1 ≤ n ∧ addr + n - 1 > 0xFFF := by
  simp [outOfRange]

/-- An access within memory, as a bound. -/
theorem outOfRange_false_iff (addr n : Nat) : outOfRange addr n = false ↔ n = 0 ∨ addr + n ≤ Config.memSize := by
  simp only [outOfRange, Config.memSize, decide_eq_false_iff_not]
  omega

/-- `MemRead` answers the bytes or the range fault (R47). -/
theorem State.memRead_cases (s : State) (addr n : Nat) :
    (outOfRange addr n = false ∧ s.memRead addr n = .ok (s.mem.readBytes addr n)) ∨
    (outOfRange addr n = true ∧ s.memRead addr n = .error (rangeFault addr)) := by
  cases h : outOfRange addr n <;> simp [State.memRead, h]

/-- `MemWrite` answers the written state or the range fault (R47). -/
theorem State.memWrite_cases (s : State) (addr : Nat) (bytes : List Byte) :
    (outOfRange addr bytes.length = false ∧
      s.memWrite addr bytes = .ok { s with mem := s.mem.writeBytes addr bytes }) ∨
    (outOfRange addr bytes.length = true ∧ s.memWrite addr bytes = .error (rangeFault addr)) := by
  cases h : outOfRange addr bytes.length <;> simp [State.memWrite, h]

/-- `MemWrite` keeps the canonical form. -/
theorem State.wf_memWrite {s t : State} {addr : Nat} {bytes : List Byte} (h : s.mem.wf = true)
    (ht : s.memWrite addr bytes = .ok t) : t.mem.wf = true := by
  rcases s.memWrite_cases addr bytes with ⟨hr, hw⟩ | ⟨-, hw⟩
  · obtain rfl : _ = t := Except.ok.inj (hw.symm.trans ht)
    rcases (outOfRange_false_iff _ _).1 hr with h0 | hle
    · simpa [List.length_eq_zero_iff.1 h0, Memory.writeBytes] using h
    · exact Memory.wf_writeBytes h hle
  · simp [hw] at ht

/-- `MemRead` inside memory. -/
theorem State.memRead_of_le {s : State} {addr n : Nat} (h : n = 0 ∨ addr + n ≤ Config.memSize) :
    s.memRead addr n = .ok (s.mem.readBytes addr n) := by
  rw [State.memRead, (outOfRange_false_iff addr n).2 h]
  rfl

/-- `MemRead` past the end of memory. -/
theorem State.memRead_of_gt {s : State} {addr n : Nat} (h0 : n ≠ 0) (h : Config.memSize < addr + n) :
    s.memRead addr n = .error (rangeFault addr) := by
  rw [State.memRead, if_pos]
  simp only [Config.memSize] at h
  exact (outOfRange_iff addr n).2 (by omega)

/-- `MemWrite` inside memory. -/
theorem State.memWrite_of_le {s : State} {addr : Nat} {bytes : List Byte}
    (h : bytes.length = 0 ∨ addr + bytes.length ≤ Config.memSize) :
    s.memWrite addr bytes = .ok { s with mem := s.mem.writeBytes addr bytes } := by
  rw [State.memWrite, (outOfRange_false_iff addr bytes.length).2 h]
  rfl

/-- `MemWrite` past the end of memory. -/
theorem State.memWrite_of_gt {s : State} {addr : Nat} {bytes : List Byte} (h0 : bytes.length ≠ 0)
    (h : Config.memSize < addr + bytes.length) : s.memWrite addr bytes = .error (rangeFault addr) := by
  rw [State.memWrite, if_pos]
  simp only [Config.memSize] at h
  exact (outOfRange_iff addr _).2 (by omega)

/-- One byte of a multi-byte read. -/
theorem Memory.getD_readBytes {m : Memory} {addr n k : Nat} (h : k < n) :
    (m.readBytes addr n).getD k 0x00#8 = m.read (addr + k) := by
  simp [Memory.readBytes, h]

/-! ## The stack -/

theorem State.stackFull_iff (s : State) : s.stackFull = true ↔ ¬ Safety.StackHasRoom s := by
  unfold State.stackFull Safety.StackHasRoom
  cases s.params.stackDepth <;> simp

/-- `Push` answers the pushed state or the overflow (R95). -/
theorem State.push_cases (s : State) (w : Word) :
    (Safety.StackHasRoom s ∧ s.push w = .ok { s with stack := w :: s.stack }) ∨
    (¬ Safety.StackHasRoom s ∧ s.push w = .error (.stackOverflow w)) := by
  by_cases h : Safety.StackHasRoom s
  · exact .inl ⟨h, by rw [State.push, if_neg (by rw [State.stackFull_iff]; exact not_not_intro h)]⟩
  · exact .inr ⟨h, by rw [State.push, if_pos (s.stackFull_iff.2 h)]⟩

/-- `Pop` answers the top entry and the rest, or the underflow (R96). -/
theorem State.pop_cases (s : State) :
    (s.stack = [] ∧ s.pop = .error .stackUnderflow) ∨
    ∃ w rest, s.stack = w :: rest ∧ s.pop = .ok (w, { s with stack := rest }) := by
  cases h : s.stack with
  | nil => exact .inl ⟨rfl, by simp [State.pop, h]⟩
  | cons w rest => exact .inr ⟨w, rest, rfl, by simp [State.pop, h]⟩

/-! ## Timers and skips -/

/-- A tick counts down by one and stays at zero (R87). -/
theorem toNat_countDown (b : Byte) : (countDown b).toNat = b.toNat - 1 := by
  unfold countDown
  split
  · next h => simp [h]
  · next h =>
    have : b.toNat ≠ 0 := fun h0 => h (BitVec.eq_of_toNat_eq (by simpa using h0))
    simp only [BitVec.toNat_sub, BitVec.toNat_ofNat]
    omega

/-- A skip leads 4 or 2 further (R99). -/
theorem State.skipTarget_eq (s : State) (cond : Bool) :
    s.skipTarget cond = if cond = true then s.pc + 4#16 else s.pc + 2#16 := by
  cases cond
  · rfl
  · simp [State.skipTarget, State.npc, BitVec.add_assoc]

/-! ## The fetch -/

/-- A fetch within memory decodes the two bytes at `pc`, the first one the high byte (R81, R44). -/
theorem State.fetch_of_le {s : State} (h : s.pc.toNat ≤ 0xFFE) :
    s.fetch = Safety.wordMeaning (wordOfBytes (s.mem.read s.pc.toNat) (s.mem.read (s.pc.toNat + 1))) := by
  have hr : outOfRange s.pc.toNat 2 = false := by simp [outOfRange]; omega
  have hb : s.mem.readBytes s.pc.toNat 2 = [s.mem.read s.pc.toNat, s.mem.read (s.pc.toNat + 1)] := rfl
  simp only [State.fetch, State.memRead, hr, Bool.false_eq_true, if_false, hb, decode, Safety.wordMeaning]
  cases decodeWord (wordOfBytes (s.mem.read s.pc.toNat) (s.mem.read (s.pc.toNat + 1))) <;> rfl

/-- A fetch past the end of memory faults (R81). -/
theorem State.fetch_of_gt {s : State} (h : 0xFFE < s.pc.toNat) : s.fetch = .fault (rangeFault s.pc.toNat) := by
  have hr : outOfRange s.pc.toNat 2 = true := by simp [outOfRange]; omega
  simp [State.fetch, State.memRead, hr]

/-- A fetch that gives an instruction was within memory. -/
theorem State.pc_le_of_fetch_instr {s : State} {i : Instr} (h : s.fetch = .instr i) : s.pc.toNat ≤ 0xFFE := by
  by_contra hgt
  rw [State.fetch_of_gt (by omega)] at h
  cases h

/-- The fetch depends on `pc` and memory alone. -/
theorem State.fetch_congr {s t : State} (hpc : t.pc = s.pc) (hm : t.mem = s.mem) : t.fetch = s.fetch := by
  simp only [State.fetch, State.memRead, hpc, hm]

/-! ## Register ranges -/

/-- Loading consecutive registers: the loaded range, and every other register as before (R135). -/
theorem getElem_loadFrom (first : Nat) (bytes : List Byte) (v : Vector Byte 16) (k : Nat) (hk : k < 16) :
    (loadFrom first bytes v)[k] =
      if first ≤ k ∧ k < first + bytes.length then bytes.getD (k - first) 0x00#8 else v[k] := by
  induction bytes generalizing first v with
  | nil => rw [loadFrom, if_neg (by simp)]
  | cons b bs ih =>
    rw [loadFrom, ih, List.length_cons]
    by_cases hin : first + 1 ≤ k ∧ k < first + 1 + bs.length
    · obtain ⟨j, rfl⟩ : ∃ j, k = first + (j + 1) := ⟨k - first - 1, by omega⟩
      rw [if_pos hin, if_pos (by omega)]
      simp [show first + (j + 1) - (first + 1) = j by omega]
    · rw [if_neg hin, Vector.getElem_setIfInBounds]
      by_cases heq : first = k
      · subst heq; simp
      · rw [if_neg heq, if_neg (by omega)]

/-- The register file after `setRegRange` (R135). -/
theorem State.reg_setRegRange (s : State) (bytes : List Byte) (r : RegIx) :
    (s.setRegRange bytes).reg r = if r.toNat < bytes.length then bytes.getD r.toNat 0x00#8 else s.reg r := by
  simp only [State.reg, State.setRegRange, getElem_loadFrom, Nat.zero_le, true_and, Nat.zero_add, Nat.sub_zero]

/-- The bytes of the registers V0..Vx (R134). -/
theorem State.regRange_spec (s : State) (x : RegIx) :
    (s.regRange x).length = x.toNat + 1 ∧
    ∀ r : RegIx, r.toNat ≤ x.toNat → (s.regRange x).getD r.toNat 0x00#8 = s.reg r := by
  have hx : x.toNat < 16 := x.isLt
  refine ⟨by simp [State.regRange, rangeCount]; omega, fun r hr => ?_⟩
  have hr' : r.toNat < 16 := r.isLt
  simp [State.regRange, rangeCount, State.reg, Nat.lt_succ_of_le hr, hr']

/-! ## Completing and faulting -/

/-- What `orRaise` answers: the kept writes, or the fault taken with every write discarded (R89, R175). -/
theorem State.orRaise_ok (s t : State) : s.orRaise (.ok t) = t := rfl

theorem State.orRaise_error (s : State) (f : Fault) : s.orRaise (.error f) = { s with run := .faulted f } := rfl

/-- A meaning whose access was allowed. -/
@[simp] theorem State.orRaise_map_ok {α : Type} (s : State) (f : α → State) (a : α) :
    s.orRaise (Except.map f (.ok a)) = f a := rfl

/-- A meaning whose access faulted. -/
@[simp] theorem State.orRaise_map_error {α : Type} (s : State) (f : α → State) (e : Fault) :
    s.orRaise (Except.map f (.error e)) = s.raise e := rfl

/-- A flag is 0 or 1 (R21). -/
theorem toNat_flagByte (cond : Bool) : (flagByte cond).toNat = if cond = true then 1 else 0 := by
  cases cond <;> rfl

/-- A completed instruction: what the writes before the commit kept is kept, and the untouched timers tick. -/
theorem completesWith_complete {w : Safety.Touch} {s u : State} (npc : Word)
    (regs : ∀ r, ¬ w.regs r → u.reg r = s.reg r) (index : ¬ w.index → u.i = s.i)
    (stack : ¬ w.stack → u.stack = s.stack) (mem : ∀ a, ¬ w.mem a → u.mem.read a = s.mem.read a)
    (disp : ¬ w.disp → u.disp = s.disp) (dt : ¬ w.dt → u.dt = s.dt) (st : ¬ w.st → u.st = s.st)
    (run : u.run = s.run) (params : u.params = s.params) (inputs : u.inputs = s.inputs)
    (draws : u.draws = s.draws) : Safety.CompletesWith w s (u.complete npc) where
  regs r h := by simpa using regs r h
  index h := by simpa using index h
  stack h := by simpa using stack h
  mem a h := by simpa using mem a h
  disp h r c := by simp [State.pixel, disp h]
  dt h := by simp [toNat_countDown, dt h]
  st h := by simp [toNat_countDown, st h]
  run := by simpa using run
  params := by simpa using params
  inputs := by simpa using inputs
  draws := by simpa using draws

end Sys2Proof.Machine
end

