-- ==== Sys2Proof/Laws/PerInstr.lean ====
section
/-! SUPPORT. Statements made per instruction: the word of every instruction carries the fixed bits of its row of the opcode map (spec/30_encoding.md R65). -/

namespace Sys2Proof.Laws.EncodesItsRow

open Sys2Proof.Safety

/-- `encode i & mask == match`, with the row's columns of R65. -/
def Statement (i : Instr) : Prop := encode i &&& (rowOf i).1 = (rowOf i).2

/-- The first nibble of sixteen bits, over any mask of the rest. -/
theorem mask_op (op : Nibble) (a m b : Addr12) (h : a &&& m = b) :
    (op ++ a : BitVec (4 + 12)) &&& (0xF#4 ++ m : BitVec (4 + 12)) = (op ++ b : BitVec (4 + 12)) := by
  have hop : op &&& 0xF#4 = op := BitVec.and_allOnes (x := op)
  rw [BitVec.and_append, hop, h]

/-- The first nibble of format NNN is fixed. -/
theorem mask_encodeNNN (op : Nibble) (nnn : Addr12) : encodeNNN op nnn &&& 0xF000#16 = op ++ 0x000#12 :=
  mask_op op nnn 0x000#12 _ BitVec.and_zero

/-- The first nibble of format XKK is fixed. -/
theorem mask_encodeXKK (op : Nibble) (x : RegIx) (kk : Byte) : encodeXKK op x kk &&& 0xF000#16 = op ++ 0x000#12 :=
  mask_encodeNNN op (x ++ kk)

/-- The first nibble of format XYN is fixed. -/
theorem mask_encodeXYN (op : Nibble) (x y : RegIx) (n : Nibble) :
    encodeXYN op x y n &&& 0xF000#16 = op ++ 0x000#12 := mask_encodeNNN op (x ++ (y ++ n : BitVec 8))

/-- The last byte of twelve bits, the nibble above it masked out. -/
theorem mask_xkk (x : RegIx) (kk : Byte) :
    (x ++ kk : BitVec (4 + 8)) &&& (0x0#4 ++ 0xFF#8 : BitVec (4 + 8)) = (0x0#4 ++ kk : BitVec (4 + 8)) := by
  have hkk : kk &&& 0xFF#8 = kk := BitVec.and_allOnes (x := kk)
  rw [BitVec.and_append, BitVec.and_zero, hkk]

/-- The last nibble of a byte, the nibble above it masked out. -/
theorem mask_yn (y : RegIx) (n : Nibble) :
    (y ++ n : BitVec (4 + 4)) &&& (0x0#4 ++ 0xF#4 : BitVec (4 + 4)) = (0x0#4 ++ n : BitVec (4 + 4)) := by
  have hn : n &&& 0xF#4 = n := BitVec.and_allOnes (x := n)
  rw [BitVec.and_append, BitVec.and_zero, hn]

/-- The last nibble of twelve bits, the two above it masked out. -/
theorem mask_xyn (x y : RegIx) (n : Nibble) :
    (x ++ (y ++ n : BitVec (4 + 4)) : BitVec (4 + (4 + 4))) &&&
        (0x0#4 ++ (0x0#4 ++ 0xF#4 : BitVec (4 + 4)) : BitVec (4 + (4 + 4))) =
      (0x0#4 ++ (0x0#4 ++ n : BitVec (4 + 4)) : BitVec (4 + (4 + 4))) := by
  rw [BitVec.and_append, BitVec.and_zero, mask_yn]

/-- The first nibble and the last byte of format X are fixed. -/
theorem mask_encodeX (op : Nibble) (x : RegIx) (kk : Byte) :
    encodeXKK op x kk &&& 0xF0FF#16 = op ++ (0x0#4 ++ kk : BitVec 12) :=
  mask_op op (x ++ kk : BitVec (4 + 8)) 0x0FF#12 _ (mask_xkk x kk)

/-- The first and the last nibble of format XY are fixed. -/
theorem mask_encodeXY (op : Nibble) (x y : RegIx) (n : Nibble) :
    encodeXYN op x y n &&& 0xF00F#16 = op ++ (0x0#4 ++ (0x0#4 ++ n : BitVec 8) : BitVec 12) :=
  mask_op op (x ++ (y ++ n : BitVec (4 + 4)) : BitVec (4 + (4 + 4))) 0x00F#12 _ (mask_xyn x y n)

theorem cls : Statement (.cls) := rfl
theorem ret : Statement (.ret) := rfl
theorem jp (nnn : Addr12) : Statement (.jp nnn) := mask_encodeNNN 0x1#4 nnn
theorem call (nnn : Addr12) : Statement (.call nnn) := mask_encodeNNN 0x2#4 nnn
theorem seVxKk (x : RegIx) (kk : Byte) : Statement (.seVxKk x kk) := mask_encodeXKK 0x3#4 x kk
theorem sneVxKk (x : RegIx) (kk : Byte) : Statement (.sneVxKk x kk) := mask_encodeXKK 0x4#4 x kk
theorem seVxVy (x y : RegIx) : Statement (.seVxVy x y) := mask_encodeXY 0x5#4 x y 0x0#4
theorem ldVxKk (x : RegIx) (kk : Byte) : Statement (.ldVxKk x kk) := mask_encodeXKK 0x6#4 x kk
theorem addVxKk (x : RegIx) (kk : Byte) : Statement (.addVxKk x kk) := mask_encodeXKK 0x7#4 x kk
theorem ldVxVy (x y : RegIx) : Statement (.ldVxVy x y) := mask_encodeXY 0x8#4 x y 0x0#4
theorem orVxVy (x y : RegIx) : Statement (.orVxVy x y) := mask_encodeXY 0x8#4 x y 0x1#4
theorem andVxVy (x y : RegIx) : Statement (.andVxVy x y) := mask_encodeXY 0x8#4 x y 0x2#4
theorem xorVxVy (x y : RegIx) : Statement (.xorVxVy x y) := mask_encodeXY 0x8#4 x y 0x3#4
theorem addVxVy (x y : RegIx) : Statement (.addVxVy x y) := mask_encodeXY 0x8#4 x y 0x4#4
theorem subVxVy (x y : RegIx) : Statement (.subVxVy x y) := mask_encodeXY 0x8#4 x y 0x5#4
theorem shrVx (x y : RegIx) : Statement (.shrVx x y) := mask_encodeXY 0x8#4 x y 0x6#4
theorem subnVxVy (x y : RegIx) : Statement (.subnVxVy x y) := mask_encodeXY 0x8#4 x y 0x7#4
theorem shlVx (x y : RegIx) : Statement (.shlVx x y) := mask_encodeXY 0x8#4 x y 0xe#4
theorem sneVxVy (x y : RegIx) : Statement (.sneVxVy x y) := mask_encodeXY 0x9#4 x y 0x0#4
theorem ldINnn (nnn : Addr12) : Statement (.ldINnn nnn) := mask_encodeNNN 0xa#4 nnn
theorem jpV0Nnn (nnn : Addr12) : Statement (.jpV0Nnn nnn) := mask_encodeNNN 0xb#4 nnn
theorem rndVxKk (x : RegIx) (kk : Byte) : Statement (.rndVxKk x kk) := mask_encodeXKK 0xc#4 x kk
theorem drwVxVyN (x y : RegIx) (n : Nibble) : Statement (.drwVxVyN x y n) := mask_encodeXYN 0xd#4 x y n
theorem skpVx (x : RegIx) : Statement (.skpVx x) := mask_encodeX 0xe#4 x 0x9e#8
theorem sknpVx (x : RegIx) : Statement (.sknpVx x) := mask_encodeX 0xe#4 x 0xa1#8
theorem ldVxDt (x : RegIx) : Statement (.ldVxDt x) := mask_encodeX 0xf#4 x 0x07#8
theorem ldVxK (x : RegIx) : Statement (.ldVxK x) := mask_encodeX 0xf#4 x 0x0a#8
theorem ldDtVx (x : RegIx) : Statement (.ldDtVx x) := mask_encodeX 0xf#4 x 0x15#8
theorem ldStVx (x : RegIx) : Statement (.ldStVx x) := mask_encodeX 0xf#4 x 0x18#8
theorem addIVx (x : RegIx) : Statement (.addIVx x) := mask_encodeX 0xf#4 x 0x1e#8
theorem ldFVx (x : RegIx) : Statement (.ldFVx x) := mask_encodeX 0xf#4 x 0x29#8
theorem ldBVx (x : RegIx) : Statement (.ldBVx x) := mask_encodeX 0xf#4 x 0x33#8
theorem ldMemVx (x : RegIx) : Statement (.ldMemVx x) := mask_encodeX 0xf#4 x 0x55#8
theorem ldVxMem (x : RegIx) : Statement (.ldVxMem x) := mask_encodeX 0xf#4 x 0x65#8

end Sys2Proof.Laws.EncodesItsRow
end

