-- ==== Sys2Proof/Laws/Step.lean ====
section
/-! SUPPORT. What one step can do, said once: the cases of `step`, and of `key_press`. -/

namespace Sys2Proof.Machine

/-- Every instruction answers a next state, in every state. -/
theorem exec_next (i : Instr) (s : State) : ∃ t, exec i s = .next t := by
  cases i <;> exact ⟨_, rfl⟩

/-- A running step (R80): the fetch decides what is done. -/
theorem step_of_running {s : State} (h : s.run = .running) : step s = consumed (s.runningStep exec) := by
  simp only [step, State.cycle, h]

/-- A parked step (R88). -/
theorem step_of_parked {s : State} {wx : RegIx} (h : s.run = .awaitingKey wx) :
    step s = .next s.parkedStep.consumeInput := by
  simp only [step, State.cycle, h, consumed]

/-- A step of a faulted core (R177). -/
theorem step_of_faulted {s : State} {f : Fault} (h : s.run = .faulted f) : step s = .fault f := by
  simp only [step, State.cycle, h]

/-- A running step that fetches an instruction executes it (R84). -/
theorem step_of_instr {s t : State} {i : Instr} (h : s.run = .running) (hf : s.fetch = .instr i)
    (ht : exec i s = .next t) : step s = .next t.consumeInput := by
  simp only [step_of_running h, State.runningStep, hf, ht, consumed]

/-- A running step whose fetch faults takes that fault (R81, R175). -/
theorem step_of_fetch_fault {s : State} {f : Fault} (h : s.run = .running) (hf : s.fetch = .fault f) :
    step s = .next (s.raise f).consumeInput := by
  simp only [step_of_running h, State.runningStep, hf, consumed]

/-- A running step on an unrecognised word (R85). -/
theorem step_of_unrecognised {s : State} {ir : Word} (h : s.run = .running) (hf : s.fetch = .unrecognised ir) :
    step s = .next (State.consumeInput
      (if s.params.strictDecode = true then s.raise (.illegalInstruction ir) else s.complete s.npc)) := by
  simp only [step_of_running h, State.runningStep, hf, runUnrecognised, consumed]

/-- Everything a step that answers a next state can have done. -/
theorem step_cases {s t : State} (h : step s = .next t) :
    (s.run = .running ∧ ∃ i u, s.fetch = .instr i ∧ exec i s = .next u ∧ t = u.consumeInput) ∨
    (s.run = .running ∧ ∃ f, s.fetch = .fault f ∧ t = (s.raise f).consumeInput) ∨
    (s.run = .running ∧ ∃ ir, s.fetch = .unrecognised ir ∧
      t = State.consumeInput
        (if s.params.strictDecode = true then s.raise (.illegalInstruction ir) else s.complete s.npc)) ∨
    ∃ wx, s.run = .awaitingKey wx ∧ t = s.parkedStep.consumeInput := by
  cases hr : s.run with
  | running =>
    cases hf : s.fetch with
    | instr i =>
      obtain ⟨u, hu⟩ := exec_next i s
      rw [step_of_instr hr hf hu] at h
      cases h
      exact .inl ⟨rfl, i, u, rfl, hu, rfl⟩
    | fault f =>
      rw [step_of_fetch_fault hr hf] at h
      cases h
      exact .inr (.inl ⟨rfl, f, rfl, rfl⟩)
    | unrecognised ir =>
      rw [step_of_unrecognised hr hf] at h
      cases h
      exact .inr (.inr (.inl ⟨rfl, ir, rfl, rfl⟩))
  | awaitingKey wx =>
    rw [step_of_parked hr] at h
    cases h
    exact .inr (.inr (.inr ⟨wx, rfl, rfl⟩))
  | faulted f =>
    rw [step_of_faulted hr] at h
    cases h

/-- `key_press` on a parked core (R154). -/
theorem State.keyPress_of_parked {s : State} {wx : RegIx} (h : s.run = .awaitingKey wx) (k : Nibble) :
    s.keyPress k = { (s.setReg wx k.toByte).complete s.npc with run := .running } := by
  simp only [State.keyPress, h]

/-- `key_press` on any other core (R154). -/
theorem State.keyPress_of_not_parked {s : State} (h : ∀ wx, s.run ≠ .awaitingKey wx) (k : Nibble) :
    s.keyPress k = s := by
  unfold State.keyPress
  split
  · next wx hr => exact absurd hr (h wx)
  · rfl
  · rfl

end Sys2Proof.Machine
end

