-- ==== Sys2Proof/Tests/Slice0.lean ====
section
/-! SUPPORT. Tests of the model on the vectors of spec/95_test_vectors.md (their ids stand in the comments), and a witness for the hypotheses of every obligation that has some. -/

namespace Sys2Proof.Tests

open Sys2Proof Sys2Proof.Machine Sys2Proof.Safety

/-! ## Small states -/

/-- Reset, with `bytes` at 0x200 and some registers set. -/
def start (bytes : List Byte) (regs : List (RegIx × Byte) := []) : State :=
  regs.foldl (fun s c => s.setReg c.1 c.2) { State.reset with mem := Memory.writeBytes [] 0x200 bytes }

/-- The same, with `bytes` at `pc` instead. -/
def startAt (pc : Word) (bytes : List Byte) (regs : List (RegIx × Byte) := []) : State :=
  { start [] regs with pc := pc, mem := Memory.writeBytes [] pc.toNat bytes }

/-- The same, with `I` set and some bytes stored there. -/
def startI (index : Word) (stored bytes : List Byte) (regs : List (RegIx × Byte) := []) : State :=
  { start bytes regs with i := index, mem := (Memory.writeBytes [] 0x200 bytes).writeBytes index.toNat stored }

/-- One pixel turned on. -/
def lit (s : State) (r : Fin 32) (c : Fin 64) : State :=
  { s with disp := s.disp.set r.val (s.disp[r].set c.val true) }

/-- The state after one `step(keys, rnd)` event. -/
def after (s : State) (keys : BitVec 16 := 0#16) (rnd : Byte := 0#8) : State :=
  match s.stepEvent keys rnd with
  | .stepped _ t => t
  | .pressed t => t
  | .loaded t => t
  | .loadError _ => s
  | .notExecuted _ => s

/-- The state after one instruction. -/
def executed (i : Instr) (s : State) : State :=
  match exec i s with
  | .next t => t
  | .fault _ => s
  | .refused _ => s

/-- The state after one step of the machine. -/
def stepped (s : State) : State :=
  match step s with
  | .next t => t
  | .fault _ => s
  | .refused _ => s

/-! ## Well-formedness: a term that each check refuses -/

theorem test_wf_kk_disagrees :
    ({ op := 0x8#4, x := 0xA#4, y := 0xB#4, kk := 0xB5#8, n := 0x4#4, nnn := 0xAB5#12 } : Fields).wellFormed = false := by
  decide

theorem test_wf_nnn_disagrees :
    ({ op := 0x8#4, x := 0xA#4, y := 0xB#4, kk := 0xB4#8, n := 0x4#4, nnn := 0xBB4#12 } : Fields).wellFormed = false := by
  decide

theorem test_wf_fields_of_word :
    ({ op := 0x8#4, x := 0xA#4, y := 0xB#4, kk := 0xB4#8, n := 0x4#4, nnn := 0xAB4#12 } : Fields).wellFormed = true ∧
    fieldsOf 0x8AB4#16 = { op := 0x8#4, x := 0xA#4, y := 0xB#4, kk := 0xB4#8, n := 0x4#4, nnn := 0xAB4#12 } := by
  decide

/-- X11. -/
theorem test_wf_empty_program : programWellFormed [] = false ∧ loadError? [] = some .emptyProgram := by
  decide

/-- X12. -/
theorem test_wf_long_program (program : List Byte) (h : program.length = 3585) :
    loadError? program = some .programTooLarge := by
  unfold loadError?
  rw [h]
  decide

/-- X14. -/
theorem test_wf_one_byte : programWellFormed [0x12#8] = true := by
  decide

/-- X13. -/
theorem test_wf_longest_program (program : List Byte) (h : program.length = 3584) : loadError? program = none := by
  unfold loadError?
  rw [h]
  decide

/-! ## Decoding: a word of each row, written out from the patterns of R65 -/

theorem test_decode_system_flow :
    decode [0x00#8, 0xE0#8] = .instr .cls [] ∧
    decode [0x00#8, 0xEE#8] = .instr .ret [] ∧
    decode [0x1F#8, 0xFF#8] = .instr (.jp 0xFFF#12) [] ∧
    decode [0x22#8, 0x10#8] = .instr (.call 0x210#12) [] ∧
    decode [0xB2#8, 0x10#8] = .instr (.jpV0Nnn 0x210#12) [] := by
  decide

theorem test_decode_skips :
    decode [0x33#8, 0x2A#8] = .instr (.seVxKk 0x3#4 0x2A#8) [] ∧
    decode [0x42#8, 0x07#8] = .instr (.sneVxKk 0x2#4 0x07#8) [] ∧
    decode [0x53#8, 0x40#8] = .instr (.seVxVy 0x3#4 0x4#4) [] ∧
    decode [0x93#8, 0x40#8] = .instr (.sneVxVy 0x3#4 0x4#4) [] ∧
    decode [0xE7#8, 0x9E#8] = .instr (.skpVx 0x7#4) [] ∧
    decode [0xE7#8, 0xA1#8] = .instr (.sknpVx 0x7#4) [] := by
  decide

theorem test_decode_immediate :
    decode [0x6A#8, 0x05#8] = .instr (.ldVxKk 0xA#4 0x05#8) [] ∧
    decode [0x71#8, 0xFF#8] = .instr (.addVxKk 0x1#4 0xFF#8) [] ∧
    decode [0xA3#8, 0x0C#8] = .instr (.ldINnn 0x30C#12) [] ∧
    decode [0xC3#8, 0x0F#8] = .instr (.rndVxKk 0x3#4 0x0F#8) [] ∧
    decode [0xDA#8, 0xB5#8] = .instr (.drwVxVyN 0xA#4 0xB#4 0x5#4) [] := by
  decide

theorem test_decode_family_8 :
    decode [0x8A#8, 0xB0#8] = .instr (.ldVxVy 0xA#4 0xB#4) [] ∧
    decode [0x8A#8, 0xB1#8] = .instr (.orVxVy 0xA#4 0xB#4) [] ∧
    decode [0x8A#8, 0xB2#8] = .instr (.andVxVy 0xA#4 0xB#4) [] ∧
    decode [0x8A#8, 0xB3#8] = .instr (.xorVxVy 0xA#4 0xB#4) [] ∧
    decode [0x8A#8, 0xB4#8] = .instr (.addVxVy 0xA#4 0xB#4) [] ∧
    decode [0x8A#8, 0xB5#8] = .instr (.subVxVy 0xA#4 0xB#4) [] ∧
    decode [0x8A#8, 0xB6#8] = .instr (.shrVx 0xA#4 0xB#4) [] ∧
    decode [0x8A#8, 0xB7#8] = .instr (.subnVxVy 0xA#4 0xB#4) [] ∧
    decode [0x8A#8, 0xBE#8] = .instr (.shlVx 0xA#4 0xB#4) [] := by
  decide

theorem test_decode_family_f :
    decode [0xFE#8, 0x07#8] = .instr (.ldVxDt 0xE#4) [] ∧
    decode [0xFE#8, 0x0A#8] = .instr (.ldVxK 0xE#4) [] ∧
    decode [0xFE#8, 0x15#8] = .instr (.ldDtVx 0xE#4) [] ∧
    decode [0xFE#8, 0x18#8] = .instr (.ldStVx 0xE#4) [] ∧
    decode [0xFE#8, 0x1E#8] = .instr (.addIVx 0xE#4) [] ∧
    decode [0xFE#8, 0x29#8] = .instr (.ldFVx 0xE#4) [] ∧
    decode [0xFE#8, 0x33#8] = .instr (.ldBVx 0xE#4) [] ∧
    decode [0xFE#8, 0x55#8] = .instr (.ldMemVx 0xE#4) [] ∧
    decode [0xFE#8, 0x65#8] = .instr (.ldVxMem 0xE#4) [] := by
  decide

/-- The rows of 2.1 that select nothing. -/
theorem test_decode_unrecognised :
    [0x0000#16, 0x00E1#16, 0x01E0#16, 0x0123#16, 0x5AB1#16, 0x8008#16, 0x812F#16, 0x9121#16, 0xE09F#16,
      0xF000#16, 0xF075#16, 0x00FF#16].all (fun w => (decodeWord w).isNone) = true := by
  decide

theorem test_decode_short : decode [] = .truncated ∧ decode [0x00#8] = .truncated := by
  decide

theorem test_decode_leaves_rest : decode [0x12#8, 0x34#8, 0x56#8] = .instr (.jp 0x234#12) [0x56#8] := by
  decide

theorem test_decode_table_word : decodeTableWord 16 0x332A = some (.seVxKk 0x3#4 0x2A#8) := by
  decide

/-- The words written out in 2.1 for the assembly direction. -/
theorem test_encode :
    encodeBytes (.seVxKk 0x3#4 0x2A#8) = [0x33#8, 0x2A#8] ∧
    encodeBytes (.drwVxVyN 0xA#4 0xB#4 0x5#4) = [0xDA#8, 0xB5#8] ∧
    encodeBytes (.ldVxMem 0xE#4) = [0xFE#8, 0x65#8] := by
  decide

/-! ## Control transfer -/

/-- C1, C3. -/
theorem test_jp : (after (start [0x12, 0x34])).pc = 0x234#16 ∧ (after (start [0x13, 0x01])).pc = 0x301#16 := by
  decide

/-- C4. -/
theorem test_call : (after (startAt 0x204 [0x22, 0x10])).pc = 0x210#16 ∧
    (after (startAt 0x204 [0x22, 0x10])).stack = [0x206#16] := by
  decide

/-- X5, its last step: the stack of 16 entries is full. -/
theorem test_call_full :
    (after { start [0x22, 0x00] with stack := List.replicate 16 0x202#16 }).run = .faulted (.stackOverflow 0x202#16) := by
  decide

/-- C5. -/
theorem test_ret : (after { startAt 0x212 [0x00, 0xEE] with stack := [0x206#16] }).pc = 0x206#16 ∧
    (after { startAt 0x212 [0x00, 0xEE] with stack := [0x206#16] }).stack = [] := by
  decide

/-- C6. -/
theorem test_ret_empty : (after (start [0x00, 0xEE])).run = .faulted .stackUnderflow ∧
    (after (start [0x00, 0xEE])).pc = 0x200#16 := by
  decide

/-- C7, C8. -/
theorem test_se_kk : (after (startAt 0x208 [0x31, 0x00])).pc = 0x20C#16 ∧
    (after (startAt 0x208 [0x31, 0x00] [(1, 3)])).pc = 0x20A#16 := by
  decide

/-- C9, C10. -/
theorem test_sne_kk : (after (start [0x42, 0x07] [(2, 7)])).pc = 0x202#16 ∧
    (after (start [0x42, 0x08] [(2, 7)])).pc = 0x204#16 := by
  decide

/-- C11, C12. -/
theorem test_se_vy : (after (start [0x53, 0x40] [(3, 9), (4, 9)])).pc = 0x204#16 ∧
    (after (start [0x53, 0x40] [(3, 9), (4, 8)])).pc = 0x202#16 := by
  decide

/-- C14, C15. -/
theorem test_sne_vy : (after (start [0x93, 0x40] [(3, 9), (4, 8)])).pc = 0x204#16 ∧
    (after (start [0x93, 0x30] [(3, 9)])).pc = 0x202#16 := by
  decide

/-- C16, C17. -/
theorem test_jp_v0 : (after (start [0xB2, 0x10] [(0, 4)])).pc = 0x214#16 ∧
    (after (start [0xBF, 0xFF] [(0, 0xFF)])).pc = 0x10FE#16 := by
  decide

/-! ## Loads, arithmetic, logic, shifts, random -/

/-- A1. -/
theorem test_ld_kk : (after (start [0x6F, 0xFF])).reg 15 = 0xFF#8 := by
  decide

/-- A3. -/
theorem test_add_kk : (after (start [0x71, 0x02] [(1, 0xFF)])).reg 1 = 0x01#8 ∧
    (after (start [0x71, 0x02] [(1, 0xFF)])).reg 15 = 0x00#8 := by
  decide

/-- A4. -/
theorem test_ld_vy : (after (start [0x80, 0x10] [(1, 0x2A)])).reg 0 = 0x2A#8 := by
  decide

/-- A5. -/
theorem test_or : (after (start [0x80, 0x11] [(0, 0xF0), (1, 0x0F), (15, 0x55)])).reg 0 = 0xFF#8 ∧
    (after (start [0x80, 0x11] [(0, 0xF0), (1, 0x0F), (15, 0x55)])).reg 15 = 0x55#8 := by
  decide

/-- A6. -/
theorem test_and : (after (start [0x80, 0x12] [(0, 0xF3), (1, 0x3C)])).reg 0 = 0x30#8 := by
  decide

/-- A7. -/
theorem test_xor : (after (start [0x80, 0x13] [(0, 0xFF), (1, 0x0F)])).reg 0 = 0xF0#8 := by
  decide

/-- A9, A10. -/
theorem test_add_carry :
    ((after (start [0x80, 0x14] [(0, 0xFF), (1, 2)])).reg 0, (after (start [0x80, 0x14] [(0, 0xFF), (1, 2)])).reg 15) =
      (0x01#8, 1#8) ∧
    ((after (start [0x80, 0x14] [(0, 0xFE), (1, 1)])).reg 0, (after (start [0x80, 0x14] [(0, 0xFE), (1, 1)])).reg 15) =
      (0xFF#8, 0#8) := by
  decide

/-- A12, A13. -/
theorem test_add_vf : (after (start [0x8F, 0x14] [(15, 200), (1, 100)])).reg 15 = 1#8 ∧
    (after (start [0x80, 0xF4] [(0, 10), (15, 250)])).reg 0 = 4#8 := by
  decide

/-- A14, A15: equality gives 0. -/
theorem test_sub_flag :
    ((after (start [0x80, 0x15] [(0, 10), (1, 3)])).reg 0, (after (start [0x80, 0x15] [(0, 10), (1, 3)])).reg 15) =
      (7#8, 1#8) ∧
    (after (start [0x80, 0x15] [(0, 7), (1, 7), (15, 1)])).reg 15 = 0#8 := by
  decide

/-- A16, A17. -/
theorem test_sub_vf : (after (start [0x80, 0xF5] [(0, 5), (15, 9)])).reg 0 = 252#8 ∧
    (after (start [0x8F, 0x15] [(15, 9), (1, 5)])).reg 15 = 1#8 := by
  decide

/-- A18, A19. -/
theorem test_shr :
    ((after (start [0x80, 0x06] [(0, 5)])).reg 0, (after (start [0x80, 0x06] [(0, 5)])).reg 15) = (2#8, 1#8) ∧
    (after (start [0x80, 0x16] [(0, 4), (1, 0xFF)])).reg 0 = 2#8 := by
  decide

/-- A21. -/
theorem test_shr_vf : (after (start [0x8F, 0x06] [(15, 7)])).reg 15 = 0#8 := by
  decide

/-- A23, A24: equality gives 1. -/
theorem test_subn_flag :
    ((after (start [0x80, 0x17] [(0, 10), (1, 3)])).reg 0, (after (start [0x80, 0x17] [(0, 10), (1, 3)])).reg 15) =
      (0xF9#8, 0#8) ∧
    (after (start [0x80, 0x17] [(0, 7), (1, 7)])).reg 15 = 1#8 := by
  decide

/-- A25, A26, A27. -/
theorem test_subn_vf : (after (start [0x80, 0xF7] [(0, 5), (15, 9)])).reg 0 = 0xFC#8 ∧
    (after (start [0x8F, 0x17] [(15, 5), (1, 9)])).reg 15 = 8#8 ∧
    (after (start [0x8F, 0xF7] [(15, 0x33)])).reg 15 = 0#8 := by
  decide

/-- A28. -/
theorem test_shl :
    ((after (start [0x80, 0x0E] [(0, 0x81)])).reg 0, (after (start [0x80, 0x0E] [(0, 0x81)])).reg 15) =
      (0x02#8, 1#8) := by
  decide

/-- A30, A31. -/
theorem test_shl_vf : (after (start [0x8F, 0x0E] [(15, 0x81)])).reg 15 = 2#8 ∧
    (after (start [0x8F, 0x0E] [(15, 0x41)])).reg 15 = 0#8 := by
  decide

/-- A32, A33. -/
theorem test_rnd : (after (start [0xC3, 0x0F]) 0 0xA7).reg 3 = 0x07#8 ∧
    (after (start [0xC3, 0x00]) 0 0xFF).reg 3 = 0x00#8 := by
  decide

/-! ## Index register and memory transfers -/

/-- M1. -/
theorem test_ld_i : (after (start [0xA3, 0x00])).i = 0x300#16 := by
  decide

/-- M3, M4. -/
theorem test_add_i : (after (startI 0x0FFF [] [0xF0, 0x1E] [(0, 1)])).i = 0x1000#16 ∧
    (after { start [0xF0, 0x1E] [(0, 2)] with i := 0xFFFF }).i = 0x0001#16 := by
  decide

/-- M5, M6. -/
theorem test_ld_f : (after (start [0xF0, 0x29] [(0, 5)])).i = 0x069#16 ∧
    (after (start [0xF0, 0x29] [(0, 0xA7)])).i = 0x073#16 := by
  decide

/-- M9: the last legal base. -/
theorem test_ld_b : (after (startI 0xFFD [] [0xF0, 0x33] [(0, 255)])).mem.readBytes 0xFFD 3 = [2#8, 5#8, 5#8] := by
  decide

/-- M10. -/
theorem test_ld_b_fault :
    (after (startI 0xFFE [] [0xF0, 0x33] [(0, 255)])).run = .faulted (.memFault 0x1000#16) ∧
    (after (startI 0xFFE [] [0xF0, 0x33] [(0, 255)])).mem = (startI 0xFFE [] [0xF0, 0x33]).mem := by
  decide

/-- M11: the byte after the last is not written. -/
theorem test_store_registers :
    (after (startI 0x400 [] [0xF2, 0x55] [(0, 1), (1, 2), (2, 3), (3, 9)])).mem.readBytes 0x400 4 =
      [1#8, 2#8, 3#8, 0#8] ∧
    (after (startI 0x400 [] [0xF2, 0x55] [(0, 1), (1, 2), (2, 3), (3, 9)])).i = 0x400#16 := by
  decide

/-- M14. -/
theorem test_store_fault :
    (after { start [0xF0, 0x55] with i := 0x1001 }).run = .faulted (.memFault 0x1001#16) := by
  decide

/-- M15: the register after the last is not loaded. -/
theorem test_load_registers :
    (after (startI 0x300 [2, 5, 4] [0xF2, 0x65] [(3, 0x99)])).v.toList.take 4 = [2#8, 5#8, 4#8, 0x99#8] := by
  decide

/-- M16, M17: a fault loads nothing, and the font reads as the default. -/
theorem test_load_fault_and_font :
    ((after (startI 0xFF8 [] [0xF8, 0x65] [(0, 0x11)])).run, (after (startI 0xFF8 [] [0xF8, 0x65] [(0, 0x11)])).reg 0) =
      (.faulted (.memFault 0x1000#16), 0x11#8) ∧
    (after (startI 0x050 [] [0xF4, 0x65])).v.toList.take 5 = [0xF0#8, 0x90#8, 0x90#8, 0x90#8, 0xF0#8] := by
  decide

/-! ## Display -/

/-- D1. -/
theorem test_cls : (after (lit (start [0x00, 0xE0] [(15, 1)]) 5 5)).pixel 5 5 = false ∧
    (after (lit (start [0x00, 0xE0] [(15, 1)]) 5 5)).reg 15 = 1#8 := by
  decide

/-- D5: start coordinates wrap, pixels clip (S2). -/
theorem test_draw_clips :
    ((after (startI 0x300 [0xFF] [0xD0, 0x11] [(0, 0x7C), (1, 0x20)])).disp[0]).toList =
      List.replicate 60 false ++ List.replicate 4 true := by
  decide

/-- D13: collision at the last column. -/
theorem test_draw_collides :
    let t := after (lit (startI 0x300 [0x03] [0xD0, 0x11] [(0, 0x38)]) 0 63)
    t.pixel 0 62 = true ∧ t.pixel 0 63 = false ∧ t.reg 15 = 1#8 := by
  decide

/-! ## Keys and timers -/

/-- K1, K2. -/
theorem test_skp : (after (startAt 0x202 [0xE0, 0x9E] [(0, 7)]) 0x0080).pc = 0x206#16 ∧
    (after (startAt 0x202 [0xE0, 0x9E] [(0, 7)]) 0xFF7F).pc = 0x204#16 := by
  decide

/-- K3, K6. -/
theorem test_sknp : (after (startAt 0x206 [0xE0, 0xA1] [(0, 7)]) 0x0080).pc = 0x208#16 ∧
    (after (start [0xE0, 0xA1] [(0, 0x17)]) 0xFFFF).pc = 0x204#16 := by
  decide

/-- K11. -/
theorem test_ld_vx_dt : (after { start [0xF5, 0x07] with dt := 2 }).reg 5 = 2#8 ∧
    (after { start [0xF5, 0x07] with dt := 2 }).dt = 1#8 := by
  decide

/-- K7: held keys do not satisfy the wait. -/
theorem test_ld_k_parks :
    let t := after { startAt 0x20A [0xF3, 0x0A] with dt := 5 } 0xFFFF
    t.run = .awaitingKey 3 ∧ t.pc = 0x20A#16 ∧ t.dt = 5#8 := by
  decide

/-- K9. -/
theorem test_ld_k_resumes :
    let t := { startAt 0x20A [0xF3, 0x0A] with dt := 5, run := .awaitingKey 3 }.keyPress 0xB
    t.reg 3 = 0x0B#8 ∧ t.pc = 0x20C#16 ∧ t.dt = 4#8 ∧ t.run = .running := by
  decide

/-- K12, K13. -/
theorem test_ld_dt_vx : (after (start [0xF4, 0x15] [(4, 3)])).dt = 2#8 ∧
    (after { start [0xF4, 0x15] with dt := 9 }).dt = 0#8 := by
  decide

/-- K15. -/
theorem test_ld_st_vx : (after (start [0xF4, 0x18] [(4, 0xFF)])).st = 0xFE#8 := by
  decide

/-- K16: any instruction ticks both timers. -/
theorem test_tick : (after { start [0x60, 0x00] with dt := 1, st := 3 }).dt = 0#8 ∧
    (after { start [0x60, 0x00] with dt := 1, st := 3 }).st = 2#8 := by
  decide

/-! ## Fetch and load -/

/-- N1, N4. -/
theorem test_unrecognised_step :
    ((after { start [0x5A, 0xB1] with dt := 3 }).pc, (after { start [0x5A, 0xB1] with dt := 3 }).dt) =
      (0x202#16, 2#8) ∧
    (after { start [0xF0, 0x75] with params := ⟨some 16, true⟩ }).run = .faulted (.illegalInstruction 0xF075#16) := by
  decide

/-- X3. -/
theorem test_fetch_fault : (after { start [] with pc := 0xFFF }).run = .faulted (.memFault 0x1000#16) := by
  decide

/-- The word placed by `withFetchWord` runs as the first step after reset. -/
theorem test_placed_word : (stepped (State.reset.withFetchWord 16 0x6F2A)).reg 15 = 0x2A#8 := by
  decide

/-- S1 loaded by `reset_load`: the program lies from 0x200 on. -/
theorem test_reset_load :
    (match State.reset.loadEvent Config.defaultParams Config.defaultFont [0x60, 0x05, 0x61, 0x03, 0x80, 0x14] with
      | .loaded t => t.mem.readBytes 0x1FF 8
      | _ => []) = [0x00#8, 0x60#8, 0x05#8, 0x61#8, 0x03#8, 0x80#8, 0x14#8, 0x00#8] := by
  decide

/-! ## Witnesses: states and operands that meet the hypotheses of the obligations

Each is named after its obligation; where the clauses differ, a letter follows the name. -/

/-- The `CALL` of X9 as it stands at 0xFFE, the last address a fetch can read. -/
def lastFetch : State := startAt 0xFFE [0x22, 0x00]

theorem witness_EncodeRestoresDecodedWord : decodeWord 0x8AB4#16 = some (.addVxVy 0xA#4 0xB#4) := by
  decide

theorem witness_RowMatchesMaskedWord :
    0x00EE#16 &&& (rowOf .ret).1 = (rowOf .ret).2 ∧ decodeWord 0x00EE#16 = some .ret ∧
    0xF275#16 &&& (rowOf (.ldVxMem 0x2#4)).1 ≠ (rowOf (.ldVxMem 0x2#4)).2 := by
  decide

/-- One word of each of the six sets, and one of none. -/
theorem witness_UnrecognisedWordsAreSixSets :
    Unrecognised 0x01E0#16 ∧ Unrecognised 0x5AB1#16 ∧ Unrecognised 0x812F#16 ∧ Unrecognised 0x9121#16 ∧
    Unrecognised 0xE09F#16 ∧ Unrecognised 0xF075#16 ∧ ¬ Unrecognised 0x00EE#16 := by
  simp [Unrecognised]

theorem witness_StepExecutesDecodedInstr :
    lastFetch.run = .running ∧ lastFetch.pc.toNat ≤ 0xFFE ∧
    decode [lastFetch.mem.read lastFetch.pc.toNat, lastFetch.mem.read (lastFetch.pc.toNat + 1)] =
      .instr (.call 0x200#12) [] := by
  decide

theorem witness_FetchReadsOrFaults :
    lastFetch.pc.toNat ≤ 0xFFE ∧
    0xFFE < ({ lastFetch with pc := 0xFFF } : State).pc.toNat ∧
    ({ lastFetch with pc := 0xFFF } : State).run = .running ∧
    0xFFE < ({ lastFetch with pc := 0x10FE } : State).pc.toNat := by
  decide

/-- An unrecognised word at 0xFFE, lenient. -/
def unknownWord : State := startAt 0xFFE [0xF0, 0x75]

theorem witness_UnrecognisedWordSteps :
    Unrecognised 0xF075#16 ∧ unknownWord.run = .running ∧ unknownWord.pc.toNat ≤ 0xFFE ∧
    0xF075#16 = wordOfBytes (unknownWord.mem.read unknownWord.pc.toNat) (unknownWord.mem.read (unknownWord.pc.toNat + 1)) ∧
    unknownWord.params.strictDecode = false ∧
    ({ unknownWord with params := ⟨none, true⟩ } : State).params.strictDecode = true :=
  ⟨by simp [Unrecognised], by decide⟩

/-- A core parked in `LD V3, K`, with a given input. -/
def parked (press : Option Nibble) : State :=
  { start [0xF3, 0x0A] with run := .awaitingKey 3, inputs := [⟨0xFFFF, 0, press⟩] }

theorem witness_ParkedStepWaits :
    (parked none).run = .awaitingKey 3 ∧ (parked none).input.press = none ∧
    (parked (some 0xB)).run = .awaitingKey 3 ∧ (parked (some 0xB)).input.press = some 0xB#4 := by
  decide

/-- X4: a faulted core. -/
def stopped : State := { start [] with pc := 0xFFF, run := .faulted (.memFault 0x1000) }

theorem witness_FaultedCoreStaysFaulted : stopped.run = .faulted (.memFault 0x1000#16) := by
  decide

theorem witness_StepEventResults :
    (start [0x00, 0xEE]).run = .running ∧ (after (start [0x00, 0xEE])).result = .fault .stackUnderflow ∧
    (start [0xF3, 0x0A]).run = .running ∧ (after (start [0xF3, 0x0A])).result = .waiting ∧
    lastFetch.run = .running ∧ (after lastFetch).result = .ok ∧
    (parked none).run = .awaitingKey 3 ∧ stopped.run = .faulted (.memFault 0x1000#16) := by
  decide

theorem witness_StepEventInputsReachInstr :
    (start [0xCF, 0xFF]).run = .running ∧ (start [0xCF, 0xFF]).fetch = .instr (.rndVxKk 0xF#4 0xFF#8) ∧
    (start [0xEF, 0x9E]).fetch = .instr (.skpVx 0xF#4) ∧ (start [0xEF, 0xA1]).fetch = .instr (.sknpVx 0xF#4) := by
  decide

theorem witness_PlacedWordIsExecuted :
    ({ State.reset with pc := 0xFFE } : State).mem.wf = true ∧
    ({ State.reset with pc := 0xFFE } : State).pc.toNat ≤ 0xFFE ∧
    decodeTableWord 16 0xFFF65 = some (.ldVxMem 0xF#4) := by
  decide

/-- The boundary values of each fault condition, and states just inside it. -/
theorem witness_EveryInstrFaultsParksOrCompletes :
    FaultsWith (start []) .stackUnderflow .ret ∧
    FaultsWith { start [] with i := 0xFFE } (.memFault 0x1000) (.ldBVx 0) ∧
    FaultsWith { start [] with i := 0x1001 } (.memFault 0x1001) (.ldMemVx 0) ∧
    FaultsWith { start [] with i := 0xFFE } (.memFault 0x1000) (.drwVxVyN 0 0 3) ∧
    FaultsWith { start [] with i := 0xFF8 } (.memFault 0x1000) (.ldVxMem 8) ∧
    (∀ f, ¬ FaultsWith { start [] with i := 0x1234 } f (.drwVxVyN 0 0 0)) ∧
    (∀ f, ¬ FaultsWith { start [] with i := 0xFFD } f (.ldBVx 0)) := by
  refine ⟨⟨rfl, rfl⟩, by simp only [FaultsWith]; decide, by simp only [FaultsWith]; decide,
    by simp only [FaultsWith]; decide, by simp only [FaultsWith]; decide, ?_, ?_⟩
  · intro f h
    have e : spillFault 0x1234 0 = none := by decide
    exact absurd (e.symm.trans h) (by simp)
  · intro f h
    have e : spillFault 0xFFD 3 = none := by decide
    exact absurd (e.symm.trans h) (by simp)

theorem witness_FaultsArePrecise :
    (start [0x00, 0xEE]).run = .running ∧ step (start [0x00, 0xEE]) = .next (stepped (start [0x00, 0xEE])) ∧
    (stepped (start [0x00, 0xEE])).run = .faulted .stackUnderflow :=
  ⟨rfl, rfl, rfl⟩

theorem witness_OnlyTheirWritersChangeStores_index :
    step (start [0xA3, 0x00]) = .next (stepped (start [0xA3, 0x00])) ∧
    (stepped (start [0xA3, 0x00])).i ≠ (start [0xA3, 0x00]).i :=
  ⟨rfl, by decide⟩

theorem witness_OnlyTheirWritersChangeStores_stack :
    step lastFetch = .next (stepped lastFetch) ∧ (stepped lastFetch).stack ≠ lastFetch.stack :=
  ⟨rfl, by decide⟩

theorem witness_OnlyTheirWritersChangeStores_display :
    step (lit (start [0x00, 0xE0]) 31 63) = .next (stepped (lit (start [0x00, 0xE0]) 31 63)) ∧
    ∃ r c, (stepped (lit (start [0x00, 0xE0]) 31 63)).pixel r c ≠ (lit (start [0x00, 0xE0]) 31 63).pixel r c :=
  ⟨rfl, 31, 63, by decide⟩

theorem witness_OnlyTheirWritersChangeStores_memory :
    step (startI 0xFFD [] [0xF0, 0x33] [(0, 255)]) = .next (stepped (startI 0xFFD [] [0xF0, 0x33] [(0, 255)])) ∧
    (stepped (startI 0xFFD [] [0xF0, 0x33] [(0, 255)])).mem ≠ (startI 0xFFD [] [0xF0, 0x33] [(0, 255)]).mem :=
  ⟨rfl, by decide⟩

/-- One state for each of the six ways of `pc`. -/
theorem witness_OnlyControlTransfersMovePc :
    exec .cls lastFetch = .next (executed .cls lastFetch) ∧
    exec (.ldVxK 3) lastFetch = .next (executed (.ldVxK 3) lastFetch) ∧
    exec (.seVxKk 1 0) lastFetch = .next (executed (.seVxKk 1 0) lastFetch) ∧
    exec .ret { lastFetch with stack := [0x1000] } = .next (executed .ret { lastFetch with stack := [0x1000] }) ∧
    exec (.jp 0xFFF) lastFetch = .next (executed (.jp 0xFFF) lastFetch) ∧
    exec (.jpV0Nnn 0xFFF) lastFetch = .next (executed (.jpV0Nnn 0xFFF) lastFetch) :=
  ⟨rfl, rfl, rfl, rfl, rfl, rfl⟩

theorem witness_InputsReachOnlyTheirReaders :
    readsInput (.ldVxK 0xF#4) = false ∧ readsInput (.skpVx 0#4) = true := by
  decide

theorem witness_StepKeepsParameters : step unknownWord = .next (stepped unknownWord) := rfl

/-- Between the two: an instruction, an unrecognised no-op (K18), a wait with an idle step (K8, K9). -/
theorem witness_DelayTimerCountsInstructions :
    let s := start [] [(4, 9)]
    let t := executed (.ldDtVx 4) s
    let t1 := executed .cls t
    let t2 := t1.complete t1.npc
    let t3 := ({ executed (.ldVxK 3) t2 with inputs := [], draws := 1 } : State).keyPress 0xB
    s.run = .running ∧ exec (.ldDtVx 4) s = .next t ∧
    Executes [.instr .cls, .unrecognised 0x0000, .keyWait 3 0xB] t t3 ∧
    ∀ c ∈ [Completion.instr .cls, .unrecognised 0x0000, .keyWait 3 0xB], ∀ z, c ≠ .instr (.ldDtVx z) := by
  refine ⟨rfl, rfl, ?_, by simp⟩
  exact .more _ _ _ _ _ (.instr _ _ _ rfl rfl) (.more _ _ _ _ _ (.unrecognised _ _ _ (by decide) rfl rfl)
    (.more _ _ _ _ _ (.keyWait _ _ _ _ _ _ rfl) (.done _)))

theorem witness_StepKeepsInvariant :
    Invariant lastFetch ∧ step lastFetch = .next (stepped lastFetch) ∧
    Invariant (parked none) ∧ step (parked none) = .next (stepped (parked none)) := by
  refine ⟨⟨by decide, ?_, by simp [lastFetch, startAt, start, State.reset], by decide, ?_⟩, rfl,
    ⟨by decide, ?_, by simp [parked, start, State.reset], by decide, ?_⟩, rfl⟩
  · intro depth _
    exact Nat.zero_le _
  · intro wx h
    exact absurd h (by simp [lastFetch, startAt, start, State.reset])
  · intro depth _
    exact Nat.zero_le _
  · intro wx h
    cases h
    decide

theorem witness_ResetLoadBuildsMachine :
    1 ≤ [0x12#8].length ∧ [0x12#8].length ≤ 3584 ∧ 1 ≤ (List.replicate 3584 0x12#8).length ∧
    (List.replicate 3584 0x12#8).length ≤ 3584 :=
  ⟨by decide, by decide, by rw [List.length_replicate]; decide, by rw [List.length_replicate]⟩

theorem witness_ResetLoadRejections :
    ([] : List Byte).length = 0 ∧ 3584 < (List.replicate 3585 0x12#8).length ∧
    (1 ≤ [0x12#8].length ∧ [0x12#8].length ≤ 3584) :=
  ⟨rfl, by rw [List.length_replicate]; decide, by decide, by decide⟩

theorem witness_MemWriteThenRead :
    lastFetch.mem.wf = true ∧ (0xFFE + [1#8, 2#8].length - 1 ≤ 0xFFF) ∧
    ([1#8, 2#8, 3#8] ≠ [] ∧ 0xFFF < 0xFFE + [1#8, 2#8, 3#8].length - 1) := by
  decide

/-- P8 before its fourth step, and the last place where each store still covers the next word. -/
theorem witness_StoredWordIsFetchedNext :
    let s := { startAt 0x206 [0xF1, 0x55] [(0, 0x12), (1, 0x08)] with i := 0x208 }
    let t := { startAt 0xFFC [0xF1, 0x55] with i := 0xFFE }
    s.mem.wf = true ∧ s.run = .running ∧ s.i = s.pc + 2#16 ∧ s.fetch = .instr (.ldMemVx 1#4) ∧ 1 ≤ (1#4).toNat ∧
    s.pc.toNat + 2 + (1#4).toNat ≤ 0xFFF ∧
    t.mem.wf = true ∧ t.run = .running ∧ t.i = t.pc + 2#16 ∧ t.fetch = .instr (.ldMemVx 1#4) ∧
    t.pc.toNat + 2 + (1#4).toNat ≤ 0xFFF := by
  decide

theorem witness_StoredWordIsFetchedNext_digits :
    let s := { startAt 0xFFB [0xF0, 0x33] [(0, 0xFE)] with i := 0xFFD }
    s.mem.wf = true ∧ s.run = .running ∧ s.i = s.pc + 2#16 ∧ s.fetch = .instr (.ldBVx 0#4) ∧
    s.pc.toNat + 4 ≤ 0xFFF := by
  decide

theorem witness_MainMemoryHas4096Cells : lastFetch.mem.wf = true ∧ (0xFFF ≤ 0xFFF) ∧ 0xFFF < 0x1000 := by
  decide

theorem witness_PopReturnsLastPushed :
    lastFetch.push 0x1000 = .ok { lastFetch with stack := [0x1000] } ∧
    ({ lastFetch with stack := [0x1000] } : State).stack.length ≠ 0 ∧ lastFetch.stack.length = 0 :=
  ⟨rfl, by decide, rfl⟩

/-- A1. -/
theorem witness_LoadImmediateYieldsOperand :
    (start [0x6F, 0xFF]).run = .running ∧ (start [0x6F, 0xFF]).fetch = .instr (.ldVxKk 0xF#4 0xFF#8) := by
  decide

theorem witness_RetPopsOrUnderflows :
    ({ lastFetch with stack := [0x1000] } : State).stack = [0x1000#16] ∧ 0xFFE < (0x1000#16).toNat ∧
    lastFetch.stack = [] := by
  decide

/-- X3, C17: the largest targets. -/
theorem witness_JumpTargets :
    0xFFE < (executed (.jp 0xFFF) lastFetch).pc.toNat ∧
    0xFFE < (executed (.jpV0Nnn 0xFFF) (start [] [(0, 0xFF)])).pc.toNat := by
  decide

/-- X5 and X6: one entry short of full, full, and unbounded. -/
theorem witness_CallPushesOrOverflows :
    StackHasRoom { lastFetch with stack := List.replicate 15 0x202 } ∧
    ¬ StackHasRoom { lastFetch with stack := List.replicate 16 0x202 } ∧
    StackHasRoom { lastFetch with params := ⟨none, false⟩, stack := List.replicate 16 0x202 } := by
  refine ⟨?_, ?_, ?_⟩
  · intro depth h
    cases h
    decide
  · intro h
    exact absurd (h 16 rfl) (by decide)
  · intro depth h
    cases h

/-- S8. -/
theorem witness_CallThenReturn :
    let s := start [0x22, 0x04, 0x00, 0x00, 0x00, 0xEE]
    s.run = .running ∧ StackHasRoom s ∧ s.fetch = .instr (.call 0x204#12) ∧
    { s with pc := Addr12.toWord 0x204#12 }.fetch = .instr .ret := by
  refine ⟨rfl, ?_, by decide, by decide⟩
  intro depth h
  cases h
  decide

theorem witness_AddSetsCarry_SubSetsStrictFlag : (14#4 : RegIx) ≠ regVF := by
  decide

theorem witness_ShiftsInPlace : (14#4 : RegIx) ≠ regVF ∧ (15#4 : RegIx) = regVF := by
  decide

/-- The four clauses, with both values of the flag. -/
theorem witness_SubnFlagThenDifference :
    (0 = if ((start [] [(0, 10), (1, 3)]).reg 0).toNat ≤ ((start [] [(0, 10), (1, 3)]).reg 1).toNat then 1 else 0) ∧
    (1 = if ((start []).reg 0).toNat ≤ ((start []).reg 15).toNat then 1 else 0) ∧
    ((0#4 : RegIx) ≠ regVF ∧ (1#4 : RegIx) ≠ regVF) ∧ ((0#4 : RegIx) ≠ regVF ∧ (15#4 : RegIx) = regVF) ∧
    ((15#4 : RegIx) = regVF ∧ (1#4 : RegIx) ≠ regVF) ∧ ((15#4 : RegIx) = regVF ∧ (15#4 : RegIx) = regVF) := by
  decide

theorem witness_DecimalDigitsStored :
    ({ start [] with i := 0xFFD } : State).mem.wf = true ∧ ({ start [] with i := 0xFFD } : State).i.toNat ≤ 0xFFD ∧
    ({ start [] with i := 0xFFE } : State).mem.wf = true ∧ 0xFFD < ({ start [] with i := 0xFFE } : State).i.toNat := by
  decide

theorem witness_RegistersStored_RegistersLoaded :
    ({ start [] with i := 0xFF0 } : State).mem.wf = true ∧
    ({ start [] with i := 0xFF0 } : State).i.toNat + (15#4).toNat ≤ 0xFFF ∧
    ({ start [] with i := 0xFF1 } : State).mem.wf = true ∧
    0xFFF < ({ start [] with i := 0xFF1 } : State).i.toNat + (15#4).toNat := by
  decide

/-- The registers of the second state are all different from the stored ones. -/
theorem witness_LoadRestoresStoredRegisters :
    let s := { start [] [(0, 1), (1, 2), (2, 3)] with i := 0xFFD }
    let t := executed (.ldMemVx 2) s
    let t' := { t with v := Vector.replicate 16 0x99#8 }
    s.mem.wf = true ∧ s.i.toNat + (2#4).toNat ≤ 0xFFF ∧ exec (.ldMemVx 2#4) s = .next t ∧
    t'.mem = t.mem ∧ t'.i = s.i :=
  ⟨by decide, by decide, rfl, rfl, rfl⟩

theorem witness_DrawFlipsSpritePixels :
    ({ start [] with i := 0xFFF } : State).i.toNat + (1#4).toNat - 1 ≤ 0xFFF ∧
    ((3#4) ≠ 0#4 ∧ 0xFFF < ({ start [] with i := 0xFFE } : State).i.toNat + (3#4).toNat - 1) ∧
    (0#4 = 0#4 ∨ ({ start [] with i := 0x1234 } : State).i.toNat + (0#4).toNat - 1 ≤ 0xFFF) := by
  decide

/-- S7 at the bottom right corner. -/
theorem witness_DoubleDrawRestoresDisplay :
    let s := startI 0xFFF [0xFF] [] [(0, 62), (1, 31)]
    let t := executed (.drwVxVyN 0 1 1) s
    s.i.toNat + (1#4).toNat - 1 ≤ 0xFFF ∧ exec (.drwVxVyN 0#4 1#4 1#4) s = .next t ∧
    t.reg 0 = s.reg 0 ∧ t.reg 1 = s.reg 1 :=
  ⟨by decide, rfl, rfl, rfl⟩

/-- K1, K2, K5: key 15 held, key 7 not held, a number that names no key. -/
theorem witness_KeySkips :
    KeyHeld { start [] [(0, 15)] with inputs := [⟨0x8000, 0, none⟩] } 0 ∧
    ¬ KeyHeld { start [] [(0, 7)] with inputs := [⟨0xFF7F, 0, none⟩] } 0 ∧
    ¬ KeyHeld { start [] [(0, 16)] with inputs := [⟨0xFFFF, 0, none⟩] } 0 := by
  unfold KeyHeld
  decide

theorem witness_KeyPressOnlyResumesParked :
    (parked none).run = .awaitingKey 3 ∧ (∀ wx, (start []).run ≠ .awaitingKey wx) ∧
    ∀ wx, stopped.run ≠ .awaitingKey wx := by
  refine ⟨rfl, fun wx h => ?_, fun wx h => ?_⟩ <;> cases h

end Sys2Proof.Tests
end

section
/-! The host's inputs (spec/00_scope.md R9, R10): replacing the model's two input fields commutes with every operation of the state that does not read them, and a `step` event presents its arguments as the input of its step. -/

namespace Sys2Proof.Machine

open Sys2Proof.Safety

/-! ## Replacing the input fields -/

/-- `s` with other host inputs: the model's own fields replaced, the core as it was (log entry 3). -/
def State.withInputs (s : State) (inputs : List HostInput) (draws : Nat) : State :=
  { s with inputs := inputs, draws := draws }

section WithInputs

variable (s : State) (inputs : List HostInput) (draws : Nat)

/-- `MemRead` reads no input. -/
theorem State.memRead_withInputs (addr n : Nat) :
    (s.withInputs inputs draws).memRead addr n = s.memRead addr n := rfl

/-- `MemWrite` carries the input fields along. -/
theorem State.memWrite_withInputs (addr : Nat) (bytes : List Byte) :
    (s.withInputs inputs draws).memWrite addr bytes =
      (s.memWrite addr bytes).map (·.withInputs inputs draws) := by
  unfold State.memWrite
  split <;> rfl

/-- `Push` carries the input fields along. -/
theorem State.push_withInputs (w : Word) :
    (s.withInputs inputs draws).push w = (s.push w).map (·.withInputs inputs draws) := by
  have hfull : (s.withInputs inputs draws).stackFull = s.stackFull := rfl
  unfold State.push
  rw [hfull]
  split <;> rfl

/-- `Pop` carries the input fields along. -/
theorem State.pop_withInputs :
    (s.withInputs inputs draws).pop = s.pop.map (Prod.map id (·.withInputs inputs draws)) := by
  have hstack : (s.withInputs inputs draws).stack = s.stack := rfl
  unfold State.pop
  rw [hstack]
  cases s.stack <;> rfl

/-- An access that may fault, and what is done with its result: when both carry the input fields along, so does
the whole, in the fault as in the completion. -/
theorem State.orRaise_map_withInputs {α : Type} {e e' : Except Fault α} {f g : α → State} (relabel : α → α)
    (he : e' = e.map relabel) (hg : ∀ a, g (relabel a) = (f a).withInputs inputs draws) :
    (s.withInputs inputs draws).orRaise (e'.map g) = (s.orRaise (e.map f)).withInputs inputs draws := by
  subst he
  cases e with
  | error fault => rfl
  | ok a => exact hg a

/-- An access that reads memory, and what is done with the bytes. -/
theorem State.orRaise_memRead_withInputs (addr n : Nat) (f : List Byte → State) :
    (s.withInputs inputs draws).orRaise
        (((s.withInputs inputs draws).memRead addr n).map fun bytes => (f bytes).withInputs inputs draws) =
      (s.orRaise ((s.memRead addr n).map f)).withInputs inputs draws := by
  refine s.orRaise_map_withInputs inputs draws id ?_ fun _ => rfl
  rw [State.memRead_withInputs, Except.map_id, id]

/-- A store to memory that completes. -/
theorem State.orRaise_memWrite_withInputs (addr : Nat) (bytes : List Byte) (npc : Word) :
    (s.withInputs inputs draws).orRaise
        (((s.withInputs inputs draws).memWrite addr bytes).map fun t => t.complete npc) =
      (s.orRaise ((s.memWrite addr bytes).map fun t => t.complete npc)).withInputs inputs draws :=
  s.orRaise_map_withInputs inputs draws _ (s.memWrite_withInputs inputs draws addr bytes) fun _ => rfl

end WithInputs

/-! ## Instructions that read no input -/

/-- An instruction that reads no input (R34, last column) does the same whatever the host presents, and carries
the input fields along. The arms that may fault go through the access they make; the others hold by definition. -/
theorem exec_withInputs {i : Instr} {s t : State} (inputs : List HostInput) (draws : Nat)
    (hi : readsInput i = false) (ht : exec i s = .next t) :
    exec i (s.withInputs inputs draws) = .next (t.withInputs inputs draws) := by
  cases i with
  | rndVxKk x kk => cases hi
  | skpVx x => cases hi
  | sknpVx x => cases hi
  | ret =>
    cases ht
    exact congrArg Host.Outcome.next
      (s.orRaise_map_withInputs inputs draws _ (s.pop_withInputs inputs draws) fun _ => rfl)
  | call nnn =>
    cases ht
    exact congrArg Host.Outcome.next
      (s.orRaise_map_withInputs inputs draws _ (s.push_withInputs inputs draws s.npc) fun _ => rfl)
  | drwVxVyN x y n =>
    cases ht
    exact congrArg Host.Outcome.next (s.orRaise_memRead_withInputs inputs draws s.baseAddr n.toNat
      fun rows => (s.draw x y rows).complete s.npc)
  | ldBVx x =>
    cases ht
    exact congrArg Host.Outcome.next
      (s.orRaise_memWrite_withInputs inputs draws s.baseAddr (decimalDigits (s.reg x)) s.npc)
  | ldMemVx x =>
    cases ht
    exact congrArg Host.Outcome.next (s.orRaise_memWrite_withInputs inputs draws s.baseAddr (s.regRange x) s.npc)
  | ldVxMem x =>
    cases ht
    exact congrArg Host.Outcome.next (s.orRaise_memRead_withInputs inputs draws s.baseAddr (rangeCount x)
      fun bytes => (s.setRegRange bytes).complete s.npc)
  | _ => cases ht; rfl

/-- Settles O19: every instruction answers a next state, and replacing the input fields commutes with it. -/
theorem inputsReachOnlyTheirReaders : Obligations.InputsReachOnlyTheirReaders := by
  intro i s inputs draws hi
  obtain ⟨t, ht⟩ := exec_next i s
  exact ⟨t, ht, exec_withInputs inputs draws hi ht⟩

/-! ## The `step` event -/

/-- `s` when the host presents `keys` and `rnd` at its coming step (R9). -/
def State.presented (s : State) (keys : BitVec 16) (rnd : Byte) : State :=
  s.withInputs ({ keys := keys, rnd := rnd, press := none } :: s.inputs) s.draws

@[simp] theorem State.input_presented (s : State) (keys : BitVec 16) (rnd : Byte) :
    (s.presented keys rnd).input = { keys := keys, rnd := rnd, press := none } := rfl
@[simp] theorem State.presented_pc (s : State) (keys : BitVec 16) (rnd : Byte) :
    (s.presented keys rnd).pc = s.pc := rfl
@[simp] theorem State.reg_presented (s : State) (keys : BitVec 16) (rnd : Byte) (r : RegIx) :
    (s.presented keys rnd).reg r = s.reg r := rfl

/-- A state that runs has the result `ok` (R88). -/
theorem State.result_of_running {s : State} (h : s.run = .running) : s.result = .ok := by
  simp only [State.result, h]

/-- A `step` event of a running core that fetches an instruction executes it on the presented inputs; when the
core runs on, the result is `ok` (R84, R88). -/
theorem State.stepEvent_of_instr {s t : State} {i : Instr} {keys : BitVec 16} {rnd : Byte}
    (hrun : s.run = .running) (hfetch : s.fetch = .instr i) (ht : exec i (s.presented keys rnd) = .next t)
    (htrun : t.run = .running) : s.stepEvent keys rnd = .stepped .ok t.consumeInput := by
  have hstep : step (s.presented keys rnd) = .next t.consumeInput := step_of_instr hrun hfetch ht
  have hresult : t.consumeInput.result = .ok := State.result_of_running htrun
  simp only [State.presented, State.withInputs] at hstep
  simp only [State.stepEvent, hstep, hresult]

/-- `KeyDown` (R152): the number names a key, and that key is held (D15). -/
theorem keyDown_iff (keys : BitVec 16) (b : Byte) :
    keyDown keys b = true ↔ b.toNat ≤ 15 ∧ keys.getLsbD b.toNat = true := by
  simp [keyDown]

/-- Settles O13: the event executes the fetched instruction on the presented inputs, and RND, SKP and SKNP read
them there. -/
theorem stepEventInputsReachInstr : Obligations.StepEventInputsReachInstr := by
  intro s keys rnd hrun
  refine ⟨fun x kk hf => ⟨_, State.stepEvent_of_instr hrun hf rfl hrun, ?_⟩,
    fun x hf => ⟨_, State.stepEvent_of_instr hrun hf rfl hrun, ?_⟩,
    fun x hf => ⟨_, State.stepEvent_of_instr hrun hf rfl hrun, ?_⟩⟩
  · simp only [State.reg_consumeInput, State.reg_complete, State.reg_setReg, if_true, State.input_presented]
  · simp only [State.consumeInput_pc, State.complete_pc, State.skipTarget_eq, keyDown_iff, State.input_presented,
      State.reg_presented, State.presented_pc]
  · simp only [State.consumeInput_pc, State.complete_pc, State.skipTarget_eq, Bool.not_eq_true',
      ← Bool.not_eq_true, keyDown_iff, ite_not, State.input_presented, State.reg_presented, State.presented_pc]

end Sys2Proof.Machine
end

section
/-! What an instruction can do, said once: it takes its own fault, or parks, or commits writes that stay within the columns of spec/10_state.md R34. -/

namespace Sys2Proof.Machine

open Sys2Proof.Safety

/-! ## Faults: the conditions of R171 are the faults of the accesses -/

/-- The range fault of R171 is the one `MemRead` raises. -/
theorem spillFault_eq_some_iff_memRead (s : State) (addr n : Nat) (f : Fault) :
    spillFault addr n = some f ↔ s.memRead addr n = .error f := by
  simp only [spillFault, State.memRead, ← outOfRange_iff, rangeFault]
  split <;> simp

/-- The range fault of R171 is the one `MemWrite` raises. -/
theorem spillFault_eq_some_iff_memWrite (s : State) (addr : Nat) (bytes : List Byte) (f : Fault) :
    spillFault addr bytes.length = some f ↔ s.memWrite addr bytes = .error f := by
  simp only [spillFault, State.memWrite, ← outOfRange_iff, rangeFault]
  split <;> simp

theorem faultsWith_drwVxVyN_iff (s : State) (x y : RegIx) (n : Nibble) (f : Fault) :
    FaultsWith s f (.drwVxVyN x y n) ↔ s.memRead s.baseAddr n.toNat = .error f :=
  spillFault_eq_some_iff_memRead s s.baseAddr n.toNat f

theorem faultsWith_ldBVx_iff (s : State) (x : RegIx) (f : Fault) :
    FaultsWith s f (.ldBVx x) ↔ s.memWrite s.baseAddr (decimalDigits (s.reg x)) = .error f :=
  spillFault_eq_some_iff_memWrite s s.baseAddr (decimalDigits (s.reg x)) f

theorem faultsWith_ldMemVx_iff (s : State) (x : RegIx) (f : Fault) :
    FaultsWith s f (.ldMemVx x) ↔ s.memWrite s.baseAddr (s.regRange x) = .error f := by
  rw [← spillFault_eq_some_iff_memWrite, (s.regRange_spec x).1]
  rfl

theorem faultsWith_ldVxMem_iff (s : State) (x : RegIx) (f : Fault) :
    FaultsWith s f (.ldVxMem x) ↔ s.memRead s.baseAddr (rangeCount x) = .error f :=
  spillFault_eq_some_iff_memRead s s.baseAddr (rangeCount x) f

/-- An instruction has at most one fault in a state (R172). -/
theorem faultsWith_unique {s : State} {i : Instr} {f g : Fault} (hf : FaultsWith s f i) (hg : FaultsWith s g i) :
    f = g := by
  cases i with
  | ret => exact hf.2.trans hg.2.symm
  | call nnn => exact hf.2.trans hg.2.symm
  | drwVxVyN x y n => exact Option.some.inj (hf.symm.trans hg)
  | ldBVx x => exact Option.some.inj (hf.symm.trans hg)
  | ldMemVx x => exact Option.some.inj (hf.symm.trans hg)
  | ldVxMem x => exact Option.some.inj (hf.symm.trans hg)
  | _ => exact hf.elim

/-- As many bytes as were asked for. -/
theorem State.length_of_memRead {s : State} {addr n : Nat} {bytes : List Byte} (h : s.memRead addr n = .ok bytes) :
    bytes.length = n := by
  rcases s.memRead_cases addr n with ⟨-, hr⟩ | ⟨-, hr⟩
  · obtain rfl : _ = bytes := Except.ok.inj (hr.symm.trans h)
    exact Memory.length_readBytes _ _ _
  · simp [hr] at h

/-! ## The two users of the stack -/

/-- 00EE underflows, or leads to the popped entry (R97). -/
theorem exec_ret_cases (s : State) :
    (s.stack = [] ∧ exec .ret s = .next (s.raise .stackUnderflow)) ∨
    ∃ w rest, s.stack = w :: rest ∧ exec .ret s = .next ({ s with stack := rest }.complete w) := by
  rcases s.pop_cases with ⟨hs, hp⟩ | ⟨w, rest, hs, hp⟩
  · exact .inl ⟨hs, by rw [exec, execRet, hp, State.orRaise_map_error]⟩
  · exact .inr ⟨w, rest, hs, by rw [exec, execRet, hp, State.orRaise_map_ok]⟩

/-- 2nnn pushes the address after the call, or overflows with it (R100, R95). -/
theorem exec_call_cases (nnn : Addr12) (s : State) :
    (StackHasRoom s ∧ exec (.call nnn) s = .next ({ s with stack := s.npc :: s.stack }.complete nnn.toWord)) ∨
    (¬ StackHasRoom s ∧ exec (.call nnn) s = .next (s.raise (.stackOverflow s.npc))) := by
  rcases s.push_cases s.npc with ⟨hroom, hp⟩ | ⟨hroom, hp⟩
  · exact .inl ⟨hroom, by rw [exec, execCall, hp, State.orRaise_map_ok]⟩
  · exact .inr ⟨hroom, by rw [exec, execCall, hp, State.orRaise_map_error]⟩

/-! ## The writes of an instruction, before it commits `pc` and ticks -/

/-- `u` is `s` after writes to at most what `w` names, `pc` aside: the frame `CompletesWith` before the commit,
with the memory itself kept (not only what it reads as) where `w` names no cell, and its canonical form always. -/
structure Writes (w : Touch) (s u : State) : Prop where
  regs   : ∀ r, ¬ w.regs r → u.reg r = s.reg r
  index  : ¬ w.index → u.i = s.i
  stack  : ¬ w.stack → u.stack = s.stack
  cells  : ∀ a, ¬ w.mem a → u.mem.read a = s.mem.read a
  mem    : (∀ a, ¬ w.mem a) → u.mem = s.mem
  wf     : s.mem.wf = true → u.mem.wf = true
  disp   : ¬ w.disp → u.disp = s.disp
  dt     : ¬ w.dt → u.dt = s.dt
  st     : ¬ w.st → u.st = s.st
  run    : u.run = s.run
  params : u.params = s.params
  inputs : u.inputs = s.inputs
  draws  : u.draws = s.draws

namespace Writes

variable {w : Touch} {s u : State}

theorem refl (w : Touch) (s : State) : Writes w s s where
  regs _ _ := rfl
  index _ := rfl
  stack _ := rfl
  cells _ _ := rfl
  mem _ := rfl
  wf := id
  disp _ := rfl
  dt _ := rfl
  st _ := rfl
  run := rfl
  params := rfl
  inputs := rfl
  draws := rfl

theorem setReg (h : Writes w s u) {x : RegIx} (hx : w.regs x) (b : Byte) : Writes w s (u.setReg x b) where
  __ := h
  regs r hr := by
    have hne : r ≠ x := fun he => hr (he ▸ hx)
    rw [State.reg_setReg, if_neg hne, h.regs r hr]

theorem setFlag (h : Writes w s u) (hx : w.regs regVF) (cond : Bool) : Writes w s (u.setFlag cond) :=
  h.setReg hx _

theorem setRegRange (h : Writes w s u) {bytes : List Byte} (hx : ∀ r : RegIx, r.toNat < bytes.length → w.regs r) :
    Writes w s (u.setRegRange bytes) where
  __ := h
  regs r hr := by rw [State.reg_setRegRange, if_neg fun hlt => hr (hx r hlt), h.regs r hr]

theorem setIndex (h : Writes w s u) (hi : w.index) (v : Word) : Writes w s { u with i := v } :=
  { h with index := fun hn => absurd hi hn }

theorem setStack (h : Writes w s u) (hk : w.stack) (stack : List Word) : Writes w s { u with stack := stack } :=
  { h with stack := fun hn => absurd hk hn }

theorem setDisp (h : Writes w s u) (hd : w.disp) (disp : Display) : Writes w s { u with disp := disp } :=
  { h with disp := fun hn => absurd hd hn }

theorem setDt (h : Writes w s u) (hd : w.dt) (b : Byte) : Writes w s { u with dt := b } :=
  { h with dt := fun hn => absurd hd hn }

theorem setSt (h : Writes w s u) (hd : w.st) (b : Byte) : Writes w s { u with st := b } :=
  { h with st := fun hn => absurd hd hn }

/-- An allowed `MemWrite` changes the cells of its range and no other (R47, R49). -/
theorem of_memWrite {addr : Nat} {bytes : List Byte} (hu : s.memWrite addr bytes = .ok u)
    (hw : ∀ a, addr ≤ a → a < addr + bytes.length → w.mem a) : Writes w s u := by
  have hwf : s.mem.wf = true → u.mem.wf = true := fun h => State.wf_memWrite h hu
  rcases s.memWrite_cases addr bytes with ⟨-, he⟩ | ⟨-, he⟩
  · obtain rfl : _ = u := Except.ok.inj (he.symm.trans hu)
    refine { Writes.refl w s with cells := fun a ha => ?_, mem := fun hn => ?_, wf := hwf }
    · refine Memory.read_writeBytes_outside _ ?_
      by_contra hin
      exact ha (hw a (by omega) (by omega))
    · cases bytes with
      | nil => rfl
      | cons b bs => exact absurd (hw addr le_rfl (by simp)) (hn addr)
  · simp [he] at hu

/-- The commit of `pc` and the tick make the writes a completed instruction (R86, R87). -/
theorem completesWith (h : Writes w s u) (npc : Word) : CompletesWith w s (u.complete npc) :=
  completesWith_complete npc h.regs h.index h.stack h.cells h.disp h.dt h.st h.run h.params h.inputs h.draws

end Writes

/-! ## What an instruction answers -/

/-- The three ways an instruction can end: it takes its own fault (R175), it parks (R153), or it commits writes
within its row of R34 (R86). -/
inductive Answers : Instr → State → State → Prop where
  | faults {i : Instr} {s : State} {f : Fault} (own : FaultsWith s f i) : Answers i s (s.raise f)
  | parks (x : RegIx) (s : State) : Answers (.ldVxK x) s { s with run := .awaitingKey x }
  | completes {i : Instr} {s u : State} {npc : Word} (writes : Writes (touchOf s i) s u)
      (safe : ∀ f, ¬ FaultsWith s f i := by exact fun _ => id) (ready : ∀ x, i ≠ .ldVxK x := by nofun) :
      Answers i s (u.complete npc)

/-- An instruction whose fault is that of one access, and which commits what it does with the access's result. -/
theorem Answers.of_access {α : Type} {i : Instr} {s : State} {e : Except Fault α} {g : α → State} {npc : α → Word}
    (hfault : ∀ f, FaultsWith s f i ↔ e = .error f) (ready : ∀ x, i ≠ .ldVxK x)
    (hg : ∀ a, e = .ok a → Writes (touchOf s i) s (g a)) :
    Answers i s (s.orRaise (e.map fun a => (g a).complete (npc a))) := by
  cases e with
  | error f => exact .faults ((hfault f).2 rfl)
  | ok a => exact .completes (hg a rfl) (fun f hf => by cases (hfault f).1 hf) ready

/-- Every instruction answers in one of the three ways. -/
theorem exec_answers {i : Instr} {s t : State} (h : exec i s = .next t) : Answers i s t := by
  have same := Writes.refl (touchOf s i) s
  cases i with
  | cls => cases h; exact .completes (same.setDisp trivial _)
  | ret =>
    rcases exec_ret_cases s with ⟨hs, he⟩ | ⟨w, rest, hs, he⟩ <;> cases he.symm.trans h
    · exact .faults ⟨hs, rfl⟩
    · exact .completes (same.setStack trivial _) fun f own => by simp [own.1] at hs
  | call nnn =>
    rcases exec_call_cases nnn s with ⟨hroom, he⟩ | ⟨hroom, he⟩ <;> cases he.symm.trans h
    · exact .completes (same.setStack trivial _) fun f own => own.1 hroom
    · exact .faults ⟨hroom, rfl⟩
  | ldVxKk x kk => cases h; exact .completes (same.setReg rfl _)
  | addVxKk x kk => cases h; exact .completes (same.setReg rfl _)
  | ldVxVy x y => cases h; exact .completes (same.setReg rfl _)
  | orVxVy x y => cases h; exact .completes (same.setReg rfl _)
  | andVxVy x y => cases h; exact .completes (same.setReg rfl _)
  | xorVxVy x y => cases h; exact .completes (same.setReg rfl _)
  | rndVxKk x kk => cases h; exact .completes (same.setReg rfl _)
  | ldVxDt x => cases h; exact .completes (same.setReg rfl _)
  | addVxVy x y => cases h; exact .completes ((same.setReg (.inl rfl) _).setFlag (.inr rfl) _)
  | subVxVy x y => cases h; exact .completes ((same.setReg (.inl rfl) _).setFlag (.inr rfl) _)
  | shrVx x y => cases h; exact .completes ((same.setFlag (.inr rfl) _).setReg (.inl rfl) _)
  | subnVxVy x y => cases h; exact .completes ((same.setFlag (.inr rfl) _).setReg (.inl rfl) _)
  | shlVx x y => cases h; exact .completes ((same.setFlag (.inr rfl) _).setReg (.inl rfl) _)
  | ldINnn nnn => cases h; exact .completes (same.setIndex trivial _)
  | addIVx x => cases h; exact .completes (same.setIndex trivial _)
  | ldFVx x => cases h; exact .completes (same.setIndex trivial _)
  | ldDtVx x => cases h; exact .completes (same.setDt trivial _)
  | ldStVx x => cases h; exact .completes (same.setSt trivial _)
  | ldVxK x => cases h; exact .parks x s
  | drwVxVyN x y n =>
    cases h
    exact .of_access (faultsWith_drwVxVyN_iff s x y n) nofun fun rows _ =>
      (same.setDisp trivial _).setFlag rfl _
  | ldBVx x =>
    cases h
    refine .of_access (faultsWith_ldBVx_iff s x) nofun fun u hu => .of_memWrite hu fun a hle hlt => ?_
    exact ⟨hle, Nat.le_of_lt_succ hlt⟩
  | ldMemVx x =>
    cases h
    refine .of_access (faultsWith_ldMemVx_iff s x) nofun fun u hu => .of_memWrite hu fun a hle hlt => ?_
    rw [(s.regRange_spec x).1] at hlt
    exact ⟨hle, Nat.le_of_lt_succ hlt⟩
  | ldVxMem x =>
    cases h
    refine .of_access (faultsWith_ldVxMem_iff s x) nofun fun bytes hb => same.setRegRange fun r hr => ?_
    rw [State.length_of_memRead hb] at hr
    exact Nat.le_of_lt_succ hr
  | _ => cases h; exact .completes same

/-- Settles O15: by the three ways an instruction can end, of which its fault condition and its being Fx0A choose
one. -/
theorem everyInstrFaultsParksOrCompletes : Obligations.EveryInstrFaultsParksOrCompletes := by
  intro i s
  obtain ⟨t, ht⟩ := exec_next i s
  refine ⟨t, ht, ?_⟩
  cases exec_answers ht with
  | @faults _ _ f own =>
    refine ⟨fun g hg => faultsWith_unique own hg ▸ rfl, fun x hx => ?_, fun safe _ => absurd own (safe f)⟩
    subst hx
    exact own.elim
  | parks x => exact ⟨fun f own => own.elim, fun y hy => by cases hy; rfl, fun _ ready => absurd rfl (ready x)⟩
  | completes writes safe ready =>
    exact ⟨fun f own => absurd own (safe f), fun x hx => absurd hx (ready x), fun _ _ => writes.completesWith _⟩

end Sys2Proof.Machine
end

section
/-! What a step keeps (spec/10_state.md R22 to R28): the stores only their writers change, the ways of `pc`, the invariant, and its start after reset. -/

namespace Sys2Proof.Machine

open Sys2Proof.Safety

/-! ## The stores an instruction leaves alone -/

namespace Answers

variable {i : Instr} {s t : State}

theorem i_eq (h : Answers i s t) (hw : ¬ (touchOf s i).index) : t.i = s.i := by
  cases h with
  | faults => rfl
  | parks => rfl
  | completes writes => exact writes.index hw

theorem stack_eq (h : Answers i s t) (hw : ¬ (touchOf s i).stack) : t.stack = s.stack := by
  cases h with
  | faults => rfl
  | parks => rfl
  | completes writes => exact writes.stack hw

theorem disp_eq (h : Answers i s t) (hw : ¬ (touchOf s i).disp) : t.disp = s.disp := by
  cases h with
  | faults => rfl
  | parks => rfl
  | completes writes => exact writes.disp hw

theorem mem_eq (h : Answers i s t) (hw : ∀ a, ¬ (touchOf s i).mem a) : t.mem = s.mem := by
  cases h with
  | faults => rfl
  | parks => rfl
  | completes writes => exact writes.mem hw

theorem wf_mem (h : Answers i s t) (hs : s.mem.wf = true) : t.mem.wf = true := by
  cases h with
  | faults => exact hs
  | parks => exact hs
  | completes writes => exact writes.wf hs

theorem params_eq (h : Answers i s t) : t.params = s.params := by
  cases h with
  | faults => rfl
  | parks => rfl
  | completes writes => exact writes.params

/-- Only Fx0A parks a running core, and it changes nothing else (R153). -/
theorem of_awaitingKey (h : Answers i s t) (hs : s.run = .running) {wx : RegIx} (ht : t.run = .awaitingKey wx) :
    i = .ldVxK wx ∧ t = { s with run := .awaitingKey wx } := by
  cases h with
  | faults => cases ht
  | parks x => cases ht; exact ⟨rfl, rfl⟩
  | completes writes =>
    rw [State.complete_run, writes.run, hs] at ht
    cases ht

end Answers

/-! ## The writers of each store, read off R34 -/

theorem writer_of_touch_index {s : State} {i : Instr} (h : (touchOf s i).index) :
    (∃ nnn, i = .ldINnn nnn) ∨ (∃ x, i = .addIVx x) ∨ ∃ x, i = .ldFVx x := by
  cases i with
  | ldINnn nnn => exact .inl ⟨nnn, rfl⟩
  | addIVx x => exact .inr (.inl ⟨x, rfl⟩)
  | ldFVx x => exact .inr (.inr ⟨x, rfl⟩)
  | _ => exact h.elim

theorem writer_of_touch_stack {s : State} {i : Instr} (h : (touchOf s i).stack) : i = .ret ∨ ∃ nnn, i = .call nnn := by
  cases i with
  | ret => exact .inl rfl
  | call nnn => exact .inr ⟨nnn, rfl⟩
  | _ => exact h.elim

theorem writer_of_touch_disp {s : State} {i : Instr} (h : (touchOf s i).disp) :
    i = .cls ∨ ∃ x y n, i = .drwVxVyN x y n := by
  cases i with
  | cls => exact .inl rfl
  | drwVxVyN x y n => exact .inr ⟨x, y, n, rfl⟩
  | _ => exact h.elim

theorem writer_of_touch_mem {s : State} {i : Instr} {a : Nat} (h : (touchOf s i).mem a) :
    (∃ x, i = .ldBVx x) ∨ ∃ x, i = .ldMemVx x := by
  cases i with
  | ldBVx x => exact .inl ⟨x, rfl⟩
  | ldMemVx x => exact .inr ⟨x, rfl⟩
  | _ => exact h.elim

/-! ## Steps that execute no instruction -/

/-- A parked step does nothing, or completes the wait with a key (R88, R154). -/
theorem State.parkedStep_cases {s : State} {wx : RegIx} (h : s.run = .awaitingKey wx) :
    s.parkedStep = s ∨
    ∃ k : Nibble, s.parkedStep = { (s.setReg wx k.toByte).complete s.npc with run := .running } := by
  unfold State.parkedStep
  split
  · next k _ => exact .inr ⟨k, s.keyPress_of_parked h k⟩
  · exact .inl rfl

/-- A step that executes no instruction keeps every store: `I`, the stack, the display and memory. -/
theorem step_instr_or_keeps_stores {s t : State} (h : step s = .next t) :
    (∃ i u, s.fetch = .instr i ∧ exec i s = .next u ∧ t = u.consumeInput) ∨
    (t.i = s.i ∧ t.stack = s.stack ∧ t.disp = s.disp ∧ t.mem = s.mem) := by
  rcases step_cases h with ⟨-, hinstr⟩ | ⟨-, f, -, rfl⟩ | ⟨-, ir, -, rfl⟩ | ⟨wx, hr, rfl⟩
  · exact .inl hinstr
  · exact .inr ⟨rfl, rfl, rfl, rfl⟩
  · refine .inr ?_
    split <;> exact ⟨rfl, rfl, rfl, rfl⟩
  · refine .inr ?_
    rcases State.parkedStep_cases hr with hp | ⟨k, hp⟩ <;> rw [hp] <;> exact ⟨rfl, rfl, rfl, rfl⟩

/-- Settles O17: a store that changed was changed by the fetched instruction, whose row of R34 names that store. -/
theorem onlyTheirWritersChangeStores : Obligations.OnlyTheirWritersChangeStores := by
  intro s t h
  rcases step_instr_or_keeps_stores h with ⟨i, u, hf, hu, rfl⟩ | ⟨hi, hstack, hdisp, hmem⟩
  · have hans := exec_answers hu
    refine ⟨fun hne => ⟨i, hf, writer_of_touch_index (s := s) ?_⟩, fun hne => ⟨i, hf, writer_of_touch_stack (s := s) ?_⟩,
      fun ⟨r, c, hne⟩ => ⟨i, hf, writer_of_touch_disp (s := s) ?_⟩, fun hne => ⟨i, hf, ?_⟩⟩
    · by_contra hw
      exact hne (hans.i_eq hw)
    · by_contra hw
      exact hne (hans.stack_eq hw)
    · by_contra hw
      exact hne (State.pixel_congr (hans.disp_eq hw) r c)
    · by_contra hw
      exact hne (hans.mem_eq fun a ha => hw (writer_of_touch_mem ha))
  · exact ⟨fun hne => absurd hi hne, fun hne => absurd hstack hne,
      fun ⟨r, c, hne⟩ => absurd (State.pixel_congr hdisp r c) hne, fun hne => absurd hmem hne⟩

/-! ## The ways of `pc` -/

/-- The target of Bnnn does not wrap (R105, R23). -/
theorem State.toNat_indexedTarget (s : State) (nnn : Addr12) :
    (s.indexedTarget nnn).toNat = nnn.toNat + (s.reg 0#4).toNat := by
  have hn := nnn.isLt
  have hv := (s.reg 0#4).isLt
  simp only [State.indexedTarget, Addr12.toWord, Byte.toWord, BitVec.toNat_add, BitVec.toNat_setWidth]
  omega

/-- A skip that completes leads 2 or 4 further (R99). -/
theorem State.pc_of_skip (s : State) (cond : Bool) :
    (s.complete (s.skipTarget cond)).pc = s.pc + 2#16 ∨ (s.complete (s.skipTarget cond)).pc = s.pc + 4#16 := by
  rw [State.complete_pc, State.skipTarget_eq]
  split
  · exact .inr rfl
  · exact .inl rfl

/-- An instruction whose fault is that of one access, and which goes on after it, leads 2 further or faults where
it is. -/
theorem State.pc_of_access {α : Type} {i : Instr} {s : State} {e : Except Fault α} {g : α → State}
    (hfault : ∀ f, FaultsWith s f i ↔ e = .error f) :
    (s.orRaise (e.map fun a => (g a).complete s.npc)).pc = s.pc + 2#16 ∨
    (s.orRaise (e.map fun a => (g a).complete s.npc)).pc = s.pc ∧ ((∃ x, i = .ldVxK x) ∨ ∃ f, FaultsWith s f i) := by
  cases e with
  | error f => exact .inr ⟨rfl, .inr ⟨f, (hfault f).2 rfl⟩⟩
  | ok a => exact .inl rfl

/-- Settles O18: by cases on the instruction. A skip goes by its target, a transfer and Dxyn by their one access,
and what is left out of the cases goes 2 further. -/
theorem onlyControlTransfersMovePc : Obligations.OnlyControlTransfersMovePc := by
  intro i s t h
  cases i with
  | ret =>
    rcases exec_ret_cases s with ⟨hs, he⟩ | ⟨w, rest, hs, he⟩ <;> cases he.symm.trans h
    · exact .inr (.inl ⟨rfl, .inr ⟨_, hs, rfl⟩⟩)
    · exact .inr (.inr (.inr (.inl ⟨rfl, hs.symm⟩)))
  | call nnn =>
    rcases exec_call_cases nnn s with ⟨-, he⟩ | ⟨hroom, he⟩ <;> cases he.symm.trans h
    · exact .inr (.inr (.inr (.inr (.inl ⟨nnn, .inr rfl, rfl⟩))))
    · exact .inr (.inl ⟨rfl, .inr ⟨_, hroom, rfl⟩⟩)
  | jp nnn => cases h; exact .inr (.inr (.inr (.inr (.inl ⟨nnn, .inl rfl, rfl⟩))))
  | jpV0Nnn nnn => cases h; exact .inr (.inr (.inr (.inr (.inr ⟨nnn, rfl, s.toNat_indexedTarget nnn⟩))))
  | ldVxK x => cases h; exact .inr (.inl ⟨rfl, .inl ⟨x, rfl⟩⟩)
  | seVxKk x kk =>
    cases h
    exact (s.pc_of_skip _).imp_right fun hpc => .inr (.inl ⟨hpc, .inl ⟨x, kk, rfl⟩⟩)
  | sneVxKk x kk =>
    cases h
    exact (s.pc_of_skip _).imp_right fun hpc => .inr (.inl ⟨hpc, .inr (.inl ⟨x, kk, rfl⟩)⟩)
  | seVxVy x y =>
    cases h
    exact (s.pc_of_skip _).imp_right fun hpc => .inr (.inl ⟨hpc, .inr (.inr (.inl ⟨x, y, rfl⟩))⟩)
  | sneVxVy x y =>
    cases h
    exact (s.pc_of_skip _).imp_right fun hpc => .inr (.inl ⟨hpc, .inr (.inr (.inr (.inl ⟨x, y, rfl⟩)))⟩)
  | skpVx x =>
    cases h
    exact (s.pc_of_skip _).imp_right fun hpc => .inr (.inl ⟨hpc, .inr (.inr (.inr (.inr (.inl ⟨x, rfl⟩))))⟩)
  | sknpVx x =>
    cases h
    exact (s.pc_of_skip _).imp_right fun hpc => .inr (.inl ⟨hpc, .inr (.inr (.inr (.inr (.inr ⟨x, rfl⟩))))⟩)
  | drwVxVyN x y n => cases h; exact (State.pc_of_access (faultsWith_drwVxVyN_iff s x y n)).imp_right .inl
  | ldBVx x => cases h; exact (State.pc_of_access (faultsWith_ldBVx_iff s x)).imp_right .inl
  | ldMemVx x => cases h; exact (State.pc_of_access (faultsWith_ldMemVx_iff s x)).imp_right .inl
  | ldVxMem x => cases h; exact (State.pc_of_access (faultsWith_ldVxMem_iff s x)).imp_right .inl
  | _ => cases h; exact .inl rfl

/-! ## The invariant -/

/-- A fetch that gives an unrecognised word was within memory. -/
theorem State.pc_le_of_fetch_unrecognised {s : State} {ir : Word} (h : s.fetch = .unrecognised ir) :
    s.pc.toNat ≤ 0xFFE := by
  by_contra hgt
  rw [State.fetch_of_gt (by omega)] at h
  cases h

/-- The address after a fetched word is at most 0x1000 (R23). -/
theorem State.toNat_npc_le {s : State} (h : s.pc.toNat ≤ 0xFFE) : s.npc.toNat ≤ 0x1000 := by
  simp only [State.npc, BitVec.toNat_add, BitVec.toNat_ofNat]
  omega

/-- The stack after an instruction: as it was, one entry shorter (00EE), or with the address after the call on
top where there was room (2nnn). -/
theorem exec_stack_cases {i : Instr} {s t : State} (h : exec i s = .next t) :
    t.stack = s.stack ∨ (∃ top, s.stack = top :: t.stack) ∨ (StackHasRoom s ∧ t.stack = s.npc :: s.stack) := by
  by_cases hw : (touchOf s i).stack
  · rcases writer_of_touch_stack hw with rfl | ⟨nnn, rfl⟩
    · rcases exec_ret_cases s with ⟨-, he⟩ | ⟨w, rest, hs, he⟩ <;> cases he.symm.trans h
      · exact .inl rfl
      · exact .inr (.inl ⟨w, hs⟩)
    · rcases exec_call_cases nnn s with ⟨hroom, he⟩ | ⟨-, he⟩ <;> cases he.symm.trans h
      · exact .inr (.inr ⟨hroom, rfl⟩)
      · exact .inl rfl
  · exact .inl ((exec_answers h).stack_eq hw)

/-- Every way of `pc` stays at most 0x10FE when return addresses are at most 0x1000 (R23): Bnnn leads furthest. -/
theorem exec_pc_le {i : Instr} {s t : State} (h : exec i s = .next t) (hpc : s.pc.toNat ≤ 0xFFE)
    (hreturns : ∀ w ∈ s.stack, w.toNat ≤ 0x1000) : t.pc.toNat ≤ 0x10FE := by
  rcases onlyControlTransfersMovePc i s t h with he | ⟨he, -⟩ | ⟨he, -⟩ | ⟨-, he⟩ | ⟨nnn, -, he⟩ | ⟨nnn, -, he⟩
  · rw [he, BitVec.toNat_add, BitVec.toNat_ofNat]
    omega
  · rw [he]
    omega
  · rw [he, BitVec.toNat_add, BitVec.toNat_ofNat]
    omega
  · have hpop : t.pc.toNat ≤ 0x1000 := hreturns t.pc (he ▸ List.mem_cons_self)
    omega
  · rw [he, Addr12.toWord, BitVec.toNat_setWidth]
    omega
  · have hv := (s.reg 0#4).isLt
    omega

end Sys2Proof.Machine

namespace Sys2Proof.Safety.Invariant

open Sys2Proof.Machine

variable {s t : State}

/-- The input fields are no part of the invariant. -/
theorem consumeInput (h : Invariant s) : Invariant s.consumeInput where
  memory := h.memory
  stack := h.stack
  returns := h.returns
  pc := h.pc
  parked := h.parked

/-- A core that is not parked keeps the invariant when only `pc` moved, within its bound. -/
theorem of_kept (h : Invariant s) (hmem : t.mem = s.mem) (hstack : t.stack = s.stack) (hparams : t.params = s.params)
    (hpc : t.pc.toNat ≤ 0x10FE) (hrun : ∀ wx, t.run ≠ .awaitingKey wx) : Invariant t where
  memory := hmem ▸ h.memory
  stack depth hd := hstack ▸ h.stack depth (hparams ▸ hd)
  returns w hw := h.returns w (hstack ▸ hw)
  pc := hpc
  parked wx hr := absurd hr (hrun wx)

theorem of_raise (h : Invariant s) (f : Fault) : Invariant (s.raise f) :=
  h.of_kept rfl rfl rfl h.pc nofun

/-- Going on to the next word, after a fetch within memory, on a core that is not parked then. -/
theorem of_npc (h : Invariant s) (hfetch : s.pc.toNat ≤ 0xFFE) (hmem : t.mem = s.mem) (hstack : t.stack = s.stack)
    (hparams : t.params = s.params) (hpc : t.pc = s.npc) (hrun : t.run = .running) : Invariant t := by
  have hle := State.toNat_npc_le hfetch
  exact h.of_kept hmem hstack hparams (by rw [hpc]; omega) fun wx hr => by cases hrun.symm.trans hr

/-- The instruction a running core has fetched keeps the invariant. -/
theorem of_exec {i : Instr} (h : Invariant s) (hrun : s.run = .running) (hf : s.fetch = .instr i)
    (ht : exec i s = .next t) : Invariant t := by
  have hans := exec_answers ht
  have hfetch := State.pc_le_of_fetch_instr hf
  refine ⟨hans.wf_mem h.memory, fun depth hd => ?_, fun w hw => ?_, exec_pc_le ht hfetch h.returns, fun wx hr => ?_⟩
  · rw [hans.params_eq] at hd
    have hle := h.stack depth hd
    rcases exec_stack_cases ht with he | ⟨top, he⟩ | ⟨hroom, he⟩
    · rwa [he]
    · rw [he, List.length_cons] at hle
      omega
    · rw [he]
      exact hroom depth hd
  · rcases exec_stack_cases ht with he | ⟨top, he⟩ | ⟨-, he⟩
    · exact h.returns w (he ▸ hw)
    · exact h.returns w (he ▸ List.mem_cons_of_mem top hw)
    · rw [he] at hw
      rcases List.mem_cons.1 hw with rfl | hold
      · exact State.toNat_npc_le hfetch
      · exact h.returns w hold
  · obtain ⟨rfl, rfl⟩ := hans.of_awaitingKey hrun hr
    exact hf

end Sys2Proof.Safety.Invariant

namespace Sys2Proof.Machine

open Sys2Proof.Safety

/-- Settles O22: by the cases of a step; what is executed keeps the invariant, a fault moves nothing, and a no-op
or a key press leads to the next word. -/
theorem stepKeepsInvariant : Obligations.StepKeepsInvariant := by
  intro s t hs h
  rcases step_cases h with ⟨hrun, i, u, hf, hu, rfl⟩ | ⟨-, f, -, rfl⟩ | ⟨hrun, ir, hf, rfl⟩ | ⟨wx, hrun, rfl⟩
  · exact (hs.of_exec hrun hf hu).consumeInput
  · exact (hs.of_raise f).consumeInput
  · refine Invariant.consumeInput ?_
    split
    · exact hs.of_raise _
    · exact hs.of_npc (State.pc_le_of_fetch_unrecognised hf) rfl rfl rfl rfl hrun
  · refine Invariant.consumeInput ?_
    rcases State.parkedStep_cases hrun with hp | ⟨k, hp⟩ <;> rw [hp]
    · exact hs
    · exact hs.of_npc (State.pc_le_of_fetch_instr (hs.parked wx hrun)) rfl rfl rfl rfl rfl

/-! ## Reset -/

/-- The reset image: the font in its 80 cells, 0x00 elsewhere (R202, D17). -/
theorem unlistedByte_eq (a : Nat) :
    unlistedByte a = if 0x050 ≤ a ∧ a < 0x0A0 then Config.defaultFont.toList.getD (a - 0x050) 0#8 else 0#8 := by
  have hlen : Config.defaultFont.toList.length = 80 := Vector.length_toList
  unfold unlistedByte Config.fontBase
  by_cases hle : 0x050 ≤ a
  · by_cases hlt : a < 0x0A0
    · rw [if_pos hle, if_pos ⟨hle, hlt⟩]
    · rw [if_pos hle, if_neg fun hin => hlt hin.2, List.getD_eq_default _ _ (by omega)]
  · rw [if_neg hle, if_neg fun hin => hle hin.1]

/-- The machine after reset meets the invariant. -/
theorem invariant_reset : Invariant State.reset where
  memory := Memory.wf_reset
  stack depth _ := Nat.zero_le depth
  returns _ hw := absurd hw List.not_mem_nil
  pc := by decide
  parked _ hr := by cases hr

theorem reg_reset (r : RegIx) : State.reset.reg r = 0#8 := Vector.getElem_replicate r.isLt

theorem pixel_reset (r : Fin 32) (c : Fin 64) : State.reset.pixel r c = false := by
  simp [State.pixel, State.reset, blankDisplay]

/-- Settles O23: the registers, the pixels and the memory image by their lemmas, the rest by definition. -/
theorem resetStateIsClear : Obligations.ResetStateIsClear :=
  ⟨invariant_reset, rfl, rfl, reg_reset, rfl, rfl, rfl, rfl, pixel_reset, rfl, rfl, unlistedByte_eq⟩

end Sys2Proof.Machine
end

section
/-! Main memory (spec/20_memory.md R41 to R52): a read after a write of consecutive bytes, an access of one byte, and a store that the very next fetch sees. -/

namespace Sys2Proof.Machine

open Sys2Proof.Safety

/-! ## Reading back what was written -/

/-- Reading back the first `n` of the bytes just written gives them (R49). -/
theorem Memory.readBytes_writeBytes {m : Memory} (h : m.wf = true) {addr n : Nat} {bytes : List Byte}
    (ha : addr + bytes.length ≤ Config.memSize) (hn : n ≤ bytes.length) :
    (m.writeBytes addr bytes).readBytes addr n = bytes.take n := by
  refine List.ext_getElem (by simp [hn]) fun k hk _ => ?_
  rw [Memory.length_readBytes] at hk
  have hlt : k < bytes.length := by omega
  rw [Memory.getElem_readBytes, Memory.read_writeBytes h ha, if_pos (by omega), Nat.add_sub_cancel_left,
    List.getD_eq_getElem _ _ hlt, List.getElem_take]

/-- A `MemRead` of the first `n` bytes of a completed `MemWrite` returns them (R47, R49). -/
theorem State.memRead_of_memWrite {s t : State} {addr n : Nat} {bytes : List Byte} (h : s.mem.wf = true)
    (ht : s.memWrite addr bytes = .ok t) (hn : n ≤ bytes.length) : t.memRead addr n = .ok (bytes.take n) := by
  rcases s.memWrite_cases addr bytes with ⟨hr, hw⟩ | ⟨-, hw⟩ <;> cases hw.symm.trans ht
  rcases (outOfRange_false_iff _ _).1 hr with h0 | hle
  · obtain rfl : n = 0 := by omega
    exact State.memRead_of_le (.inl rfl)
  · rw [State.memRead_of_le (.inr (by omega)), Memory.readBytes_writeBytes h hle hn]

/-- Settles O26: the range check decides between the two clauses; in range, the laws of the written memory say the
rest. -/
theorem memWriteThenRead : Obligations.MemWriteThenRead := by
  intro s addr bytes hwf
  constructor
  · intro hin
    have hfit : bytes.length = 0 ∨ addr + bytes.length ≤ Config.memSize := by
      rw [List.length_eq_zero_iff]
      exact hin.imp_right fun hle => by simp only [Config.memSize]; omega
    have hw := State.memWrite_of_le (s := s) hfit
    have hback := State.memRead_of_memWrite hwf hw le_rfl
    rw [List.take_length] at hback
    exact ⟨_, hw, rfl, State.wf_memWrite hwf hw, hback, fun a ha => s.mem.read_writeBytes_outside ha⟩
  · rintro ⟨hne, hgt⟩
    exact State.memWrite_of_gt (List.length_eq_zero_iff.not.2 hne) (by simp only [Config.memSize]; omega)

/-! ## One byte -/

/-- `MemRead` depends on the cells of its range alone. -/
theorem State.memRead_congr {s t : State} {addr n : Nat} (h : ∀ k < n, t.mem.read (addr + k) = s.mem.read (addr + k)) :
    t.memRead addr n = s.memRead addr n := by
  have hbytes : t.mem.readBytes addr n = s.mem.readBytes addr n :=
    List.map_congr_left fun k hk => h k (List.mem_range.1 hk)
  simp only [State.memRead, hbytes]

/-- Settles O53: the case of one byte of O26, and of the range check for the read. -/
theorem mainMemoryHas4096Cells : Obligations.MainMemoryHas4096Cells := by
  intro s a b hwf
  obtain ⟨hin, hout⟩ := memWriteThenRead s a [b] hwf
  constructor
  · intro ha
    obtain ⟨t, hw, -, -, hback, hframe⟩ := hin (.inr ha)
    refine ⟨State.memRead_of_le (.inr (Nat.succ_le_succ ha)), t, hw, hback, fun c hc => State.memRead_congr fun k hk => ?_⟩
    exact hframe _ (by simp only [List.length_singleton]; omega)
  · intro ha
    exact ⟨⟨_, State.memRead_of_gt one_ne_zero (Nat.succ_lt_succ ha)⟩, _, hout ⟨List.cons_ne_nil b [], ha⟩⟩

/-! ## A store over the next instruction -/

/-- The fetch gives the meaning of the word whose two bytes `MemRead` returns at `pc` (R81, R44). -/
theorem State.fetch_of_memRead {s : State} {hi lo : Byte} (h : s.memRead s.pc.toNat 2 = .ok [hi, lo]) :
    s.fetch = wordMeaning (wordOfBytes hi lo) := by
  simp only [State.fetch, h, decode, wordMeaning]
  cases decodeWord (wordOfBytes hi lo) <;> rfl

/-- A running step on an instruction that stores bytes where the next step fetches, and completes: the first two
of them are the word of that fetch (R52). -/
theorem step_store_over_next {s : State} {i : Instr} {bytes : List Byte} {hi lo : Byte} (hwf : s.mem.wf = true)
    (hrun : s.run = .running) (hbase : s.i = s.pc + 2#16) (hf : s.fetch = .instr i)
    (hexec : exec i s = .next (s.orRaise ((s.memWrite s.baseAddr bytes).map fun t => t.complete s.npc)))
    (hfit : s.pc.toNat + 2 + bytes.length ≤ Config.memSize) (htwo : bytes.take 2 = [hi, lo]) :
    ∃ t, step s = .next t ∧ t.run = .running ∧ t.pc = s.pc + 2#16 ∧
      t.memRead t.pc.toNat 2 = .ok [hi, lo] ∧ t.fetch = wordMeaning (wordOfBytes hi lo) := by
  have hlen : 2 ≤ bytes.length := by
    have := congrArg List.length htwo
    simp only [List.length_take, List.length_cons, List.length_nil] at this
    omega
  have hbaseAddr : s.baseAddr = s.npc.toNat := congrArg BitVec.toNat hbase
  have hnpc : s.npc.toNat = s.pc.toNat + 2 := by
    simp only [Config.memSize] at hfit
    simp only [State.npc, BitVec.toNat_add, BitVec.toNat_ofNat]
    omega
  have hw := State.memWrite_of_le (s := s) (addr := s.npc.toNat) (bytes := bytes) (.inr (by omega))
  rw [hbaseAddr, hw, State.orRaise_map_ok] at hexec
  have hread := State.memRead_of_memWrite hwf hw hlen
  rw [htwo] at hread
  exact ⟨_, step_of_instr hrun hf hexec, hrun, rfl, hread, State.fetch_of_memRead hread⟩

/-- The registers V0..Vx with `x` at least 1 begin with V0 and V1 (R134). -/
theorem State.take_two_regRange (s : State) {x : RegIx} (h : 1 ≤ x.toNat) :
    (s.regRange x).take 2 = [s.reg 0#4, s.reg 1#4] := by
  obtain ⟨hlen, hget⟩ := s.regRange_spec x
  have h0 := hget 0#4 (Nat.zero_le _)
  have h1 := hget 1#4 h
  match s.regRange x, hlen, h0, h1 with
  | a :: b :: rest, _, h0, h1 => exact congrArg₂ (fun p q => [p, q]) h0 h1
  | [a], hlen, _, _ => simp at hlen; omega

/-- Settles O27: both instructions store where the next step fetches; they differ in the bytes they store. -/
theorem storedWordIsFetchedNext : Obligations.StoredWordIsFetchedNext := by
  intro s x hwf hrun hbase
  constructor
  · intro hf hx hfit
    have hlen := (s.regRange_spec x).1
    exact step_store_over_next hwf hrun hbase hf rfl (by simp only [Config.memSize]; omega) (s.take_two_regRange hx)
  · intro hf hfit
    have hb := (s.reg x).isLt
    obtain ⟨t, hstep, ht, hpc, hread, hfetch⟩ := step_store_over_next hwf hrun hbase hf
      (bytes := decimalDigits (s.reg x)) rfl (Nat.succ_le_succ hfit) rfl
    refine ⟨t, hstep, ht, hpc, _, _, ?_, ?_, hread, hfetch⟩ <;> rw [BitVec.toNat_ofNat] <;> omega

/-! ## Words of the spec -/

/-- Settles O6: the decoder evaluated on the six words. -/
theorem specWordsDecode : Obligations.SpecWordsDecode := by
  unfold Obligations.SpecWordsDecode
  decide

end Sys2Proof.Machine
end

section
/-! The encoding (spec/30_encoding.md R60 to R66): the fields of a word and the word of its fields, the decoder against the encoder in both directions, against the opcode map of R65 and against the six sets of R66. -/

namespace Sys2Proof

open Sys2Proof.Safety

/-! ## The fields of a word (R61) -/

/-- A word is its first nibble and the 12 bits after it. -/
theorem encodeNNN_fieldsOf (w : Word) : encodeNNN (fieldsOf w).op (fieldsOf w).nnn = w :=
  (BitVec.extractLsb'_append_extractLsb'_eq_extractLsb' rfl).trans BitVec.extractLsb'_eq_self

/-- The second overlap of R61. -/
theorem fieldsOf_nnn (w : Word) : (fieldsOf w).nnn = (fieldsOf w).x ++ (fieldsOf w).kk :=
  (BitVec.extractLsb'_append_extractLsb'_eq_extractLsb' (x := w) (start₁ := 0) (len₁ := 8) (len₂ := 4) rfl).symm

/-- The first overlap of R61. -/
theorem fieldsOf_kk (w : Word) : (fieldsOf w).kk = (fieldsOf w).y ++ (fieldsOf w).n :=
  (BitVec.extractLsb'_append_extractLsb'_eq_extractLsb' (x := w) (start₁ := 0) (len₁ := 4) (len₂ := 4) rfl).symm

theorem encodeXKK_fieldsOf (w : Word) : encodeXKK (fieldsOf w).op (fieldsOf w).x (fieldsOf w).kk = w := by
  rw [encodeXKK, ← fieldsOf_nnn]
  exact encodeNNN_fieldsOf w

theorem encodeXYN_fieldsOf (w : Word) :
    encodeXYN (fieldsOf w).op (fieldsOf w).x (fieldsOf w).y (fieldsOf w).n = w := by
  rw [encodeXYN, ← fieldsOf_kk]
  exact encodeXKK_fieldsOf w

theorem wellFormed_fieldsOf (w : Word) : (fieldsOf w).wellFormed = true := by
  simp only [Fields.wellFormed, Fields.kkAgrees, Fields.nnnAgrees, ← fieldsOf_kk, ← fieldsOf_nnn, beq_self_eq_true,
    Bool.and_self]

theorem toNat_op (w : Word) : (fieldsOf w).op.toNat = w.toNat / 4096 := by
  have hw := w.isLt
  simp only [fieldsOf, BitVec.extractLsb'_toNat, Nat.shiftRight_eq_div_pow]
  omega

theorem toNat_x (w : Word) : (fieldsOf w).x.toNat = w.toNat / 256 % 16 := by
  simp only [fieldsOf, BitVec.extractLsb'_toNat, Nat.shiftRight_eq_div_pow, Nat.reducePow]

theorem toNat_y (w : Word) : (fieldsOf w).y.toNat = w.toNat / 16 % 16 := by
  simp only [fieldsOf, BitVec.extractLsb'_toNat, Nat.shiftRight_eq_div_pow, Nat.reducePow]

theorem toNat_kk (w : Word) : (fieldsOf w).kk.toNat = w.toNat % 256 := by
  simp only [fieldsOf, BitVec.extractLsb'_toNat, Nat.shiftRight_zero, Nat.reducePow]

theorem toNat_n (w : Word) : (fieldsOf w).n.toNat = w.toNat % 16 := by
  simp only [fieldsOf, BitVec.extractLsb'_toNat, Nat.shiftRight_zero, Nat.reducePow]

theorem toNat_nnn (w : Word) : (fieldsOf w).nnn.toNat = w.toNat % 4096 := by
  simp only [fieldsOf, BitVec.extractLsb'_toNat, Nat.shiftRight_zero, Nat.reducePow]

/-- Settles O1: a field is a quotient and a remainder, and adjacent fields make the field that spans them. -/
theorem sixFieldsOfEveryWord : Obligations.SixFieldsOfEveryWord := fun w =>
  ⟨toNat_op w, toNat_x w, toNat_y w, toNat_kk w, toNat_n w, toNat_nnn w, wellFormed_fieldsOf w⟩

/-! ## The fields of an encoding (R62) -/

@[simp] theorem op_encodeNNN (op : Nibble) (nnn : Addr12) : (fieldsOf (encodeNNN op nnn)).op = op :=
  BitVec.extractLsb'_append_eq_left

@[simp] theorem nnn_encodeNNN (op : Nibble) (nnn : Addr12) : (fieldsOf (encodeNNN op nnn)).nnn = nnn :=
  BitVec.extractLsb'_append_eq_right

@[simp] theorem op_encodeXKK (op : Nibble) (x : RegIx) (kk : Byte) : (fieldsOf (encodeXKK op x kk)).op = op :=
  op_encodeNNN op _

@[simp] theorem x_encodeXKK (op : Nibble) (x : RegIx) (kk : Byte) : (fieldsOf (encodeXKK op x kk)).x = x :=
  (BitVec.extractLsb'_append_eq_of_add_le (by decide)).trans BitVec.extractLsb'_append_eq_left

@[simp] theorem kk_encodeXKK (op : Nibble) (x : RegIx) (kk : Byte) : (fieldsOf (encodeXKK op x kk)).kk = kk :=
  (BitVec.extractLsb'_append_eq_of_add_le (by decide)).trans BitVec.extractLsb'_append_eq_right

@[simp] theorem op_encodeXYN (op : Nibble) (x y : RegIx) (n : Nibble) :
    (fieldsOf (encodeXYN op x y n)).op = op := op_encodeNNN op _

@[simp] theorem x_encodeXYN (op : Nibble) (x y : RegIx) (n : Nibble) :
    (fieldsOf (encodeXYN op x y n)).x = x := x_encodeXKK op x _

@[simp] theorem y_encodeXYN (op : Nibble) (x y : RegIx) (n : Nibble) :
    (fieldsOf (encodeXYN op x y n)).y = y := by
  simp only [fieldsOf, encodeXYN]
  rw [BitVec.extractLsb'_append_eq_of_add_le (by decide), BitVec.extractLsb'_append_eq_of_add_le (by decide),
    BitVec.extractLsb'_append_eq_left]

@[simp] theorem n_encodeXYN (op : Nibble) (x y : RegIx) (n : Nibble) :
    (fieldsOf (encodeXYN op x y n)).n = n := by
  simp only [fieldsOf, encodeXYN]
  rw [BitVec.extractLsb'_append_eq_of_add_le (by decide), BitVec.extractLsb'_append_eq_of_add_le (by decide),
    BitVec.extractLsb'_append_eq_right]

/-! ## Decoding what was encoded -/

/-- The decoder undoes the encoder: it reads off the fields of the format, and the fixed ones select the row. -/
theorem decodeWord_encode (i : Instr) : decodeWord (encode i) = some i := by
  cases i with
  | cls | ret => rfl
  | jp | call | ldINnn | jpV0Nnn =>
    simp only [encode, decodeWord, decodeFields, op_encodeNNN, nnn_encodeNNN]
    rfl
  | seVxKk | sneVxKk | ldVxKk | addVxKk | rndVxKk =>
    simp only [encode, decodeWord, decodeFields, op_encodeXKK, x_encodeXKK, kk_encodeXKK]
    rfl
  | skpVx | sknpVx =>
    simp only [encode, decodeWord, decodeFields, decodeFamilyE, op_encodeXKK, x_encodeXKK, kk_encodeXKK]
    rfl
  | ldVxDt | ldVxK | ldDtVx | ldStVx | addIVx | ldFVx | ldBVx | ldMemVx | ldVxMem =>
    simp only [encode, decodeWord, decodeFields, decodeFamilyF, op_encodeXKK, x_encodeXKK, kk_encodeXKK]
    rfl
  | seVxVy | sneVxVy | drwVxVyN =>
    simp only [encode, decodeWord, decodeFields, decodeFamily5, decodeFamily9, op_encodeXYN, x_encodeXYN, y_encodeXYN,
      n_encodeXYN]
    rfl
  | ldVxVy | orVxVy | andVxVy | xorVxVy | addVxVy | subVxVy | shrVx | subnVxVy | shlVx =>
    simp only [encode, decodeWord, decodeFields, decodeFamily8, op_encodeXYN, x_encodeXYN, y_encodeXYN, n_encodeXYN]
    rfl

/-- The two bytes of a word, high byte first, make the word (R44). -/
theorem wordOfBytes_bytes (w : Word) : wordOfBytes (w.extractLsb' 8 8) (w.extractLsb' 0 8) = w :=
  (BitVec.extractLsb'_append_extractLsb'_eq_extractLsb' rfl).trans BitVec.extractLsb'_eq_self

/-- Settles O2: the two bytes make the word of the instruction again, and the decoder undoes the encoder. -/
theorem decodeReadsEncodedInstr : Obligations.DecodeReadsEncodedInstr := fun i rest => by
  have hword : decodeWord (wordOfBytes ((encode i).extractLsb' 8 8) ((encode i).extractLsb' 0 8)) = some i := by
    rw [wordOfBytes_bytes, decodeWord_encode]
  simp only [encodeBytes, bytesOfWord, List.cons_append, List.nil_append, decode, hword]

/-! ## Encoding what was decoded -/

theorem encode_of_decodeFamily0 {f : Fields} {i : Instr} (h : decodeFamily0 f = some i) :
    encode i = encodeNNN 0x0#4 f.nnn := by
  unfold decodeFamily0 at h
  split_ifs at h with hnnn hnnn <;> (cases h; rw [hnnn]; rfl)

theorem encode_of_decodeFamily5 {f : Fields} {i : Instr} (h : decodeFamily5 f = some i) :
    encode i = encodeXYN 0x5#4 f.x f.y f.n := by
  unfold decodeFamily5 at h
  split_ifs at h with hn
  cases h
  rw [hn]
  rfl

theorem encode_of_decodeFamily8 {f : Fields} {i : Instr} (h : decodeFamily8 f = some i) :
    encode i = encodeXYN 0x8#4 f.x f.y f.n := by
  unfold decodeFamily8 at h
  split_ifs at h with hn hn hn hn hn hn hn hn hn <;> (cases h; rw [hn]; rfl)

theorem encode_of_decodeFamily9 {f : Fields} {i : Instr} (h : decodeFamily9 f = some i) :
    encode i = encodeXYN 0x9#4 f.x f.y f.n := by
  unfold decodeFamily9 at h
  split_ifs at h with hn
  cases h
  rw [hn]
  rfl

theorem encode_of_decodeFamilyE {f : Fields} {i : Instr} (h : decodeFamilyE f = some i) :
    encode i = encodeXKK 0xE#4 f.x f.kk := by
  unfold decodeFamilyE at h
  split_ifs at h with hkk hkk <;> (cases h; rw [hkk]; rfl)

theorem encode_of_decodeFamilyF {f : Fields} {i : Instr} (h : decodeFamilyF f = some i) :
    encode i = encodeXKK 0xF#4 f.x f.kk := by
  unfold decodeFamilyF at h
  split_ifs at h with hkk hkk hkk hkk hkk hkk hkk hkk hkk <;> (cases h; rw [hkk]; rfl)

section
variable {w : Word} {op : Nibble}

theorem encodeNNN_of_op (h : (fieldsOf w).op = op) : encodeNNN op (fieldsOf w).nnn = w := h ▸ encodeNNN_fieldsOf w

theorem encodeXKK_of_op (h : (fieldsOf w).op = op) : encodeXKK op (fieldsOf w).x (fieldsOf w).kk = w :=
  h ▸ encodeXKK_fieldsOf w

theorem encodeXYN_of_op (h : (fieldsOf w).op = op) :
    encodeXYN op (fieldsOf w).x (fieldsOf w).y (fieldsOf w).n = w := h ▸ encodeXYN_fieldsOf w

end

/-- What the decoder answers at each value of the first nibble (R65): a row of its own, or what the family answers. -/
inductive SelectsByOp (f : Fields) : Option Instr → Prop where
  | family0 (hop : f.op = 0x0#4) : SelectsByOp f (decodeFamily0 f)
  | jp (hop : f.op = 0x1#4) : SelectsByOp f (some (.jp f.nnn))
  | call (hop : f.op = 0x2#4) : SelectsByOp f (some (.call f.nnn))
  | seVxKk (hop : f.op = 0x3#4) : SelectsByOp f (some (.seVxKk f.x f.kk))
  | sneVxKk (hop : f.op = 0x4#4) : SelectsByOp f (some (.sneVxKk f.x f.kk))
  | family5 (hop : f.op = 0x5#4) : SelectsByOp f (decodeFamily5 f)
  | ldVxKk (hop : f.op = 0x6#4) : SelectsByOp f (some (.ldVxKk f.x f.kk))
  | addVxKk (hop : f.op = 0x7#4) : SelectsByOp f (some (.addVxKk f.x f.kk))
  | family8 (hop : f.op = 0x8#4) : SelectsByOp f (decodeFamily8 f)
  | family9 (hop : f.op = 0x9#4) : SelectsByOp f (decodeFamily9 f)
  | ldINnn (hop : f.op = 0xA#4) : SelectsByOp f (some (.ldINnn f.nnn))
  | jpV0Nnn (hop : f.op = 0xB#4) : SelectsByOp f (some (.jpV0Nnn f.nnn))
  | rndVxKk (hop : f.op = 0xC#4) : SelectsByOp f (some (.rndVxKk f.x f.kk))
  | drwVxVyN (hop : f.op = 0xD#4) : SelectsByOp f (some (.drwVxVyN f.x f.y f.n))
  | familyE (hop : f.op = 0xE#4) : SelectsByOp f (decodeFamilyE f)
  | familyF (hop : f.op = 0xF#4) : SelectsByOp f (decodeFamilyF f)

theorem selectsByOp_decodeFields (f : Fields) : SelectsByOp f (decodeFields f) :=
  iteInduction .family0 fun h0 => iteInduction .jp fun h1 => iteInduction .call fun h2 =>
  iteInduction .seVxKk fun h3 => iteInduction .sneVxKk fun h4 => iteInduction .family5 fun h5 =>
  iteInduction .ldVxKk fun h6 => iteInduction .addVxKk fun h7 => iteInduction .family8 fun h8 =>
  iteInduction .family9 fun h9 => iteInduction .ldINnn fun hA => iteInduction .jpV0Nnn fun hB =>
  iteInduction .rndVxKk fun hC => iteInduction .drwVxVyN fun hD => iteInduction .familyE fun hE =>
  .familyF (by bv_omega)

/-- Settles O3: the digits the decoder has checked and the fields it has kept are all of the word. -/
theorem encodeRestoresDecodedWord : Obligations.EncodeRestoresDecodedWord := by
  intro w i h
  have selects := selectsByOp_decodeFields (fieldsOf w)
  rw [← decodeWord, h] at selects
  generalize hd : some i = d at selects
  cases selects with
  | jp hop | call hop | ldINnn hop | jpV0Nnn hop =>
    cases hd
    exact encodeNNN_of_op hop
  | seVxKk hop | sneVxKk hop | ldVxKk hop | addVxKk hop | rndVxKk hop =>
    cases hd
    exact encodeXKK_of_op hop
  | drwVxVyN hop =>
    cases hd
    exact encodeXYN_of_op hop
  | family0 hop => exact (encode_of_decodeFamily0 hd.symm).trans (encodeNNN_of_op hop)
  | family5 hop => exact (encode_of_decodeFamily5 hd.symm).trans (encodeXYN_of_op hop)
  | family8 hop => exact (encode_of_decodeFamily8 hd.symm).trans (encodeXYN_of_op hop)
  | family9 hop => exact (encode_of_decodeFamily9 hd.symm).trans (encodeXYN_of_op hop)
  | familyE hop => exact (encode_of_decodeFamilyE hd.symm).trans (encodeXKK_of_op hop)
  | familyF hop => exact (encode_of_decodeFamilyF hd.symm).trans (encodeXKK_of_op hop)

/-! ## The opcode map (R65) -/

open Laws.EncodesItsRow in
/-- The word of every instruction carries the fixed bits of its row: those of its format. -/
theorem encode_and_mask (i : Instr) : encode i &&& (rowOf i).1 = (rowOf i).2 := by
  cases i with
  | cls | ret => rfl
  | jp | call | ldINnn | jpV0Nnn => exact mask_encodeNNN _ _
  | seVxKk | sneVxKk | ldVxKk | addVxKk | rndVxKk => exact mask_encodeXKK _ _ _
  | drwVxVyN => exact mask_encodeXYN _ _ _ _
  | seVxVy | ldVxVy | orVxVy | andVxVy | xorVxVy | addVxVy | subVxVy | shrVx | subnVxVy | shlVx | sneVxVy =>
    exact mask_encodeXY _ _ _ _
  | skpVx | sknpVx | ldVxDt | ldVxK | ldDtVx | ldStVx | addIVx | ldFVx | ldBVx | ldMemVx | ldVxMem =>
    exact mask_encodeX _ _ _

section
variable {w m v : Word}

/-- A word has the bits of the match where the mask has ones. -/
theorem extractLsb'_of_masked {start len : Nat} (hm : m.extractLsb' start len = BitVec.allOnes len)
    (h : w &&& m = v) : w.extractLsb' start len = v.extractLsb' start len := by
  rw [← h, BitVec.extractLsb'_and, hm, BitVec.and_allOnes]

theorem op_of_masked (hm : (fieldsOf m).op = 0xF#4) (h : w &&& m = v) : (fieldsOf w).op = (fieldsOf v).op :=
  extractLsb'_of_masked hm h

theorem kk_of_masked (hm : (fieldsOf m).kk = 0xFF#8) (h : w &&& m = v) : (fieldsOf w).kk = (fieldsOf v).kk :=
  extractLsb'_of_masked hm h

theorem n_of_masked (hm : (fieldsOf m).n = 0xF#4) (h : w &&& m = v) : (fieldsOf w).n = (fieldsOf v).n :=
  extractLsb'_of_masked hm h

end

/-- A word with the fixed bits of a row decodes to an instruction of that row: the decoder looks at no other bit to
select it. -/
theorem decodeWord_of_masked {w : Word} (i : Instr) (h : w &&& (rowOf i).1 = (rowOf i).2) :
    (decodeWord w).map rowOf = some (rowOf i) := by
  unfold decodeWord
  cases i <;> simp only [rowOf] at h ⊢
  case cls | ret =>
    obtain rfl := (BitVec.and_allOnes (x := w)).symm.trans h
    rfl
  case jp | call | seVxKk | sneVxKk | ldVxKk | addVxKk | ldINnn | jpV0Nnn | rndVxKk | drwVxVyN =>
    simp only [decodeFields, op_of_masked rfl h]
    rfl
  case seVxVy | sneVxVy =>
    simp only [decodeFields, decodeFamily5, decodeFamily9, op_of_masked rfl h, n_of_masked rfl h]
    rfl
  case ldVxVy | orVxVy | andVxVy | xorVxVy | addVxVy | subVxVy | shrVx | subnVxVy | shlVx =>
    simp only [decodeFields, decodeFamily8, op_of_masked rfl h, n_of_masked rfl h]
    rfl
  case skpVx | sknpVx =>
    simp only [decodeFields, decodeFamilyE, op_of_masked rfl h, kk_of_masked rfl h]
    rfl
  case ldVxDt | ldVxK | ldDtVx | ldStVx | addIVx | ldFVx | ldBVx | ldMemVx | ldVxMem =>
    simp only [decodeFields, decodeFamilyF, op_of_masked rfl h, kk_of_masked rfl h]
    rfl

/-- Settles O4: a word with a row's fixed bits decodes to that row, the instruction it decodes to gives the word
back and with it the row's bits; and a word decodes to one row only. -/
theorem rowMatchesMaskedWord : Obligations.RowMatchesMaskedWord := by
  refine ⟨fun w i => ⟨fun h => ?_, fun ⟨j, hdecode, hrow⟩ => ?_⟩, fun w i j hi hj => ?_⟩
  · exact Option.map_eq_some_iff.mp (decodeWord_of_masked i h)
  · rw [← encodeRestoresDecodedWord w j hdecode, ← hrow]
    exact encode_and_mask j
  · exact Option.some.inj ((decodeWord_of_masked i hi).symm.trans (decodeWord_of_masked j hj))

/-! ## The unrecognised words (R66) -/

/-- A chain of rows selects none when no check of it holds. -/
theorem ite_some_eq_none_iff {α : Type} {c : Prop} [Decidable c] {a : α} {rest : Option α} :
    (if c then some a else rest) = none ↔ ¬c ∧ rest = none := by
  split_ifs with hc <;> simp [hc]

theorem decodeFamily0_eq_none_iff (f : Fields) :
    decodeFamily0 f = none ↔ f.nnn.toNat ≠ 0x0E0 ∧ f.nnn.toNat ≠ 0x0EE := by
  simp [decodeFamily0, ite_some_eq_none_iff, BitVec.toNat_eq]

theorem decodeFamily5_eq_none_iff (f : Fields) : decodeFamily5 f = none ↔ f.n.toNat ≠ 0 := by
  simp [decodeFamily5, BitVec.toNat_eq]

theorem decodeFamily8_eq_none_iff (f : Fields) :
    decodeFamily8 f = none ↔ f.n.toNat ∈ [0x8, 0x9, 0xA, 0xB, 0xC, 0xD, 0xF] := by
  have hn := f.n.isLt
  simp only [decodeFamily8, ite_some_eq_none_iff, ite_eq_right_iff, reduceCtorEq, imp_false, BitVec.toNat_eq,
    BitVec.toNat_ofNat, List.mem_cons, List.not_mem_nil, or_false]
  omega

theorem decodeFamily9_eq_none_iff (f : Fields) : decodeFamily9 f = none ↔ f.n.toNat ≠ 0 := by
  simp [decodeFamily9, BitVec.toNat_eq]

theorem decodeFamilyE_eq_none_iff (f : Fields) : decodeFamilyE f = none ↔ f.kk.toNat ∉ [0x9E, 0xA1] := by
  simp [decodeFamilyE, ite_some_eq_none_iff, BitVec.toNat_eq]

theorem decodeFamilyF_eq_none_iff (f : Fields) :
    decodeFamilyF f = none ↔ f.kk.toNat ∉ [0x07, 0x0A, 0x15, 0x18, 0x1E, 0x29, 0x33, 0x55, 0x65] := by
  simp [decodeFamilyF, ite_some_eq_none_iff, BitVec.toNat_eq]

/-- Only the six families leave words unrecognised. -/
theorem decodeFields_eq_none_iff (f : Fields) :
    decodeFields f = none ↔
      (f.op.toNat = 0x0 ∧ decodeFamily0 f = none) ∨ (f.op.toNat = 0x5 ∧ decodeFamily5 f = none) ∨
      (f.op.toNat = 0x8 ∧ decodeFamily8 f = none) ∨ (f.op.toNat = 0x9 ∧ decodeFamily9 f = none) ∨
      (f.op.toNat = 0xE ∧ decodeFamilyE f = none) ∨ (f.op.toNat = 0xF ∧ decodeFamilyF f = none) := by
  have selects := selectsByOp_decodeFields f
  generalize decodeFields f = d at selects ⊢
  cases selects with
  | family0 hop | family5 hop | family8 hop | family9 hop | familyE hop | familyF hop => simp [hop]
  | jp hop | call hop | seVxKk hop | sneVxKk hop | ldVxKk hop | addVxKk hop | ldINnn hop | jpV0Nnn hop | rndVxKk hop
  | drwVxVyN hop => simp [hop]

/-- Settles O5: a word selects no row when its family has none for it, and the families' conditions are the six
sets; in family 0 the last three digits stand for the whole word. -/
theorem unrecognisedWordsAreSixSets : Obligations.UnrecognisedWordsAreSixSets := by
  intro w
  rw [decodeWord, decodeFields_eq_none_iff, decodeFamily0_eq_none_iff, decodeFamily5_eq_none_iff,
    decodeFamily8_eq_none_iff, decodeFamily9_eq_none_iff, decodeFamilyE_eq_none_iff, decodeFamilyF_eq_none_iff]
  simp only [toNat_op, toNat_n, toNat_kk, toNat_nnn]
  refine or_congr (and_congr_right fun hop => ?_) Iff.rfl
  omega

end Sys2Proof
end

section
/-! The step cycle (spec/40_step_cycle.md R80 to R90): what the fetch gives, how a step of a running core ends and that its faults are precise, and the results of a `step` event. -/

namespace Sys2Proof.Machine

open Sys2Proof.Safety

/-! ## How a running step ends -/

/-- A running core always takes a step: its fetch decides which (R80). -/
theorem step_next_of_running {s : State} (h : s.run = .running) : ∃ t, step s = .next t := by
  cases hf : s.fetch with
  | fault f => exact ⟨_, step_of_fetch_fault h hf⟩
  | unrecognised ir => exact ⟨_, step_of_unrecognised h hf⟩
  | instr i =>
    obtain ⟨t, ht⟩ := exec_next i s
    exact ⟨_, step_of_instr h hf ht⟩

/-- A step of a running core takes a fault and moves nothing, or parks in the Fx0A it fetched and moves nothing, or
leaves the core running (R88, R89). -/
theorem step_end_cases_of_running {s t : State} (hrun : s.run = .running) (h : step s = .next t) :
    (∃ f, t = (s.raise f).consumeInput) ∨
    (∃ x, s.fetch = .instr (.ldVxK x) ∧ t = State.consumeInput { s with run := .awaitingKey x }) ∨
    t.run = .running := by
  rcases step_cases h with ⟨-, i, u, hf, hu, rfl⟩ | ⟨-, f, -, rfl⟩ | ⟨-, ir, -, rfl⟩ | ⟨wx, hparked, -⟩
  · cases exec_answers hu with
    | @faults _ _ f own => exact .inl ⟨f, rfl⟩
    | parks x => exact .inr (.inl ⟨x, hf, rfl⟩)
    | completes writes => exact .inr (.inr (writes.run.trans hrun))
  · exact .inl ⟨f, rfl⟩
  · split
    · exact .inl ⟨_, rfl⟩
    · exact .inr (.inr hrun)
  · cases hrun.symm.trans hparked

/-- Settles O16: of the three ways a running step ends, only taking a fault leaves the core Faulted. -/
theorem faultsArePrecise : Obligations.FaultsArePrecise := by
  intro s t f hrun h hfaulted
  rcases step_end_cases_of_running hrun h with ⟨g, rfl⟩ | ⟨x, -, rfl⟩ | hok
  · cases hfaulted
    rfl
  · cases hfaulted
  · cases hok.symm.trans hfaulted

/-! ## Executing the fetched instruction -/

/-- No instruction writes the model's input fields, so consuming the input may be read off the state before. -/
theorem Answers.consumeInput_eq {i : Instr} {s t : State} (h : Answers i s t) :
    t.consumeInput = { t with inputs := s.inputs.tail, draws := s.draws + 1 } := by
  cases h with
  | faults => rfl
  | parks => rfl
  | completes writes =>
    rw [State.consumeInput, State.complete_inputs, State.complete_draws, writes.inputs, writes.draws]

/-- A running step that fetches an instruction executes it and consumes its input (R84). -/
theorem exec_and_step_of_instr {s : State} {i : Instr} (hrun : s.run = .running) (hf : s.fetch = .instr i) :
    ∃ t, exec i s = .next t ∧ step s = .next { t with inputs := s.inputs.tail, draws := s.draws + 1 } := by
  obtain ⟨t, ht⟩ := exec_next i s
  exact ⟨t, ht, (exec_answers ht).consumeInput_eq ▸ step_of_instr hrun hf ht⟩

/-- Two bytes decode to the instruction of their word (R83, R44). -/
theorem decodeWord_of_decode {hi lo : Byte} {i : Instr} (h : decode [hi, lo] = .instr i []) :
    decodeWord (wordOfBytes hi lo) = some i := by
  cases hd : decodeWord (wordOfBytes hi lo) with
  | none => simp [decode, hd] at h
  | some j => simpa [decode, hd] using h

theorem wordMeaning_of_some {w : Word} {i : Instr} (h : decodeWord w = some i) : wordMeaning w = .instr i := by
  rw [wordMeaning, h]

theorem wordMeaning_of_none {w : Word} (h : decodeWord w = none) : wordMeaning w = .unrecognised w := by
  rw [wordMeaning, h]

/-- Settles O7: the fetch gives the instruction the two bytes decode to, and the step executes it. -/
theorem stepExecutesDecodedInstr : Obligations.StepExecutesDecodedInstr := by
  intro s i hrun hpc hdecode
  refine exec_and_step_of_instr hrun ?_
  rw [State.fetch_of_le hpc, wordMeaning_of_some (decodeWord_of_decode hdecode)]

/-! ## A placed word -/

/-- The decoder reads from the bytes of a table word what the word decodes to (R44). -/
theorem decodeTableWord_eq (nbits w : Nat) : decodeTableWord nbits w = decodeWord (tableWord nbits w) := by
  simp only [decodeTableWord, bytesOfWord, decode, wordOfBytes_bytes]
  cases decodeWord (tableWord nbits w) <;> rfl

/-- The step after `placeWord` fetches the placed word (R49, R81). -/
theorem State.fetch_placeWord {s : State} (hwf : s.mem.wf = true) (hpc : s.pc.toNat ≤ 0xFFE) (w : Word) :
    (s.placeWord w).fetch = wordMeaning w := by
  have hfit : s.pc.toNat + 2 ≤ Config.memSize := Nat.add_le_add_right hpc 2
  have hwrite := State.memWrite_of_le (s := s) (bytes := bytesOfWord w) (.inr hfit)
  have hread : (s.placeWord w).memRead s.pc.toNat 2 = .ok (bytesOfWord w) :=
    State.memRead_of_memWrite hwf hwrite le_rfl
  rw [State.fetch_of_memRead hread, wordOfBytes_bytes]

/-- Settles O14: the fetch gives the placed word, and the step executes the instruction it decodes to. -/
theorem placedWordIsExecuted : Obligations.PlacedWordIsExecuted := by
  intro s nbits w i hwf hpc hdecode
  rw [decodeTableWord_eq] at hdecode
  exact exec_and_step_of_instr (s := s.withFetchWord nbits w) rfl
    ((State.fetch_placeWord hwf hpc _).trans (wordMeaning_of_some hdecode))

/-! ## The fetch -/

/-- The first byte is the high one (R44). -/
theorem toNat_wordOfBytes (hi lo : Byte) : (wordOfBytes hi lo).toNat = 256 * hi.toNat + lo.toNat := by
  rw [wordOfBytes, BitVec.toNat_append, ← Nat.shiftLeft_add_eq_or_of_lt lo.isLt, Nat.shiftLeft_eq, Nat.mul_comm]

/-- Settles O8: the range check on the two bytes at `pc` decides between the clauses, and a step takes the fault
of its fetch. -/
theorem fetchReadsOrFaults : Obligations.FetchReadsOrFaults := by
  intro s
  refine ⟨fun hle => ⟨?_, toNat_wordOfBytes _ _, State.fetch_of_le hle⟩, fun hgt => ⟨?_, State.fetch_of_gt hgt⟩,
    fun hgt hrun => step_of_fetch_fault hrun (State.fetch_of_gt hgt)⟩
  · exact State.memRead_of_le (.inr (Nat.add_le_add_right hle 2))
  · exact State.memRead_of_gt two_ne_zero (Nat.add_lt_add_right hgt 2)

/-! ## The unrecognised word -/

/-- A running step on a word of the six sets of R66 (R85). -/
theorem step_of_unrecognised_word {s : State} {ir : Word} (hrun : s.run = .running) (hpc : s.pc.toNat ≤ 0xFFE)
    (hir : ir = wordOfBytes (s.mem.read s.pc.toNat) (s.mem.read (s.pc.toNat + 1))) (hun : Unrecognised ir) :
    step s = .next (State.consumeInput
      (if s.params.strictDecode = true then s.raise (.illegalInstruction ir) else s.complete s.npc)) := by
  have hnone : decodeWord ir = none := (unrecognisedWordsAreSixSets ir).2 hun
  exact step_of_unrecognised hrun (by rw [State.fetch_of_le hpc, ← hir, wordMeaning_of_none hnone])

/-- Settles O9: the word is fetched as unrecognised, and the parameter decides between the no-op, which writes
nothing before it completes, and the fault. -/
theorem unrecognisedWordSteps : Obligations.UnrecognisedWordSteps := by
  intro s ir hrun hpc hir hun
  have hstep := step_of_unrecognised_word hrun hpc hir hun
  constructor
  · intro hlenient
    rw [hlenient, if_neg Bool.false_ne_true] at hstep
    exact ⟨_, hstep, (Writes.refl {} s.consumeInput).completesWith s.npc, rfl⟩
  · intro hstrict
    rw [hstrict, if_pos rfl] at hstep
    exact hstep

/-! ## A step while parked -/

theorem State.parkedStep_of_no_press {s : State} (h : s.input.press = none) : s.parkedStep = s := by
  rw [State.parkedStep, h]

theorem State.parkedStep_of_press {s : State} {k : Nibble} (h : s.input.press = some k) :
    s.parkedStep = s.keyPress k := by
  rw [State.parkedStep, h]

/-- Settles O10: the press of the input decides what the parked step is, and a key press writes no input field. -/
theorem parkedStepWaits : Obligations.ParkedStepWaits := by
  intro s wx hrun
  have hstep := step_of_parked hrun
  constructor
  · intro hnone
    rw [State.parkedStep_of_no_press hnone] at hstep
    exact hstep
  · intro k hsome
    rw [State.parkedStep_of_press hsome, State.keyPress_of_parked hrun] at hstep
    rw [State.keyPress_of_parked hrun]
    exact hstep

/-! ## The results of a `step` event -/

/-- A step that answers a next state gives the event the result of that state (R88). -/
theorem State.stepEvent_of_next {s t : State} {keys : BitVec 16} {rnd : Byte}
    (h : step (s.presented keys rnd) = .next t) : s.stepEvent keys rnd = .stepped t.result t := by
  simp only [State.presented, State.withInputs] at h
  simp only [State.stepEvent, h]

/-- A `step` event of a faulted core reports its fault (R88, R177). -/
theorem State.stepEvent_of_faulted {s : State} {f : Fault} (h : s.run = .faulted f) (keys : BitVec 16) (rnd : Byte) :
    s.stepEvent keys rnd = .stepped (.fault f) s := by
  have hstep : step (s.presented keys rnd) = .fault f := step_of_faulted h
  simp only [State.presented, State.withInputs] at hstep
  simp only [State.stepEvent, hstep]

/-- A `step` event of a parked core presents no key press, so the core waits on (R88). -/
theorem State.stepEvent_of_parked {s : State} {wx : RegIx} (h : s.run = .awaitingKey wx) (keys : BitVec 16)
    (rnd : Byte) : s.stepEvent keys rnd = .stepped .waiting { s with draws := s.draws + 1 } := by
  have hstep : step (s.presented keys rnd) = .next { s with draws := s.draws + 1 } :=
    (parkedStepWaits (s.presented keys rnd) wx h).1 rfl
  have hresult : ({ s with draws := s.draws + 1 } : State).result = .waiting := by
    simp only [State.result, h]
  rw [State.stepEvent_of_next hstep, hresult]

/-- Settles O12: each way a running step ends has its own result; the other run states have their lemmas. -/
theorem stepEventResults : Obligations.StepEventResults := by
  intro s keys rnd
  refine ⟨fun hrun => ?_, fun wx hrun => State.stepEvent_of_parked hrun keys rnd,
    fun f hrun => State.stepEvent_of_faulted hrun keys rnd⟩
  obtain ⟨t, ht⟩ := step_next_of_running (s := s.presented keys rnd) hrun
  refine ⟨t, State.stepEvent_of_next ht, ?_⟩
  rcases step_end_cases_of_running (s := s.presented keys rnd) hrun ht with ⟨f, rfl⟩ | ⟨x, hf, rfl⟩ | hok
  · refine ⟨fun g hg => ?_, nofun, nofun⟩
    cases hg
    rfl
  · exact ⟨nofun, fun _ => ⟨x, hf, rfl⟩, nofun⟩
  · rw [State.result_of_running hok]
    exact ⟨nofun, nofun, fun _ => hok⟩

end Sys2Proof.Machine
end

section
/-! Control transfer and the call stack (spec/41_control_flow.md R95 to R106): the stack unit, the return and the call and the two in a row, the jumps, and the four compare-and-skip instructions. -/

namespace Sys2Proof

/-- The words that decode to an instruction are one: its encoding (R64, D8). -/
theorem decodeWord_eq_some_iff {w : Word} {i : Instr} : decodeWord w = some i ↔ w = encode i := by
  constructor
  · exact fun h => (encodeRestoresDecodedWord w i h).symm
  · rintro rfl
    exact decodeWord_encode i

/-- `zext_16` keeps the number (R6). -/
theorem Addr12.toNat_toWord (nnn : Addr12) : nnn.toWord.toNat = nnn.toNat := BitVec.toNat_setWidth_of_le (by decide)

/-- The words 5xyN: the last digit is significant (R65, D8). -/
theorem decodeWord_5xyN (x y : RegIx) (n : Nibble) :
    decodeWord (encodeXYN 0x5#4 x y n) = if n = 0#4 then some (.seVxVy x y) else none := by
  simp only [decodeWord, decodeFields, decodeFamily5, op_encodeXYN, x_encodeXYN, y_encodeXYN, n_encodeXYN]
  rfl

/-- The words 9xyN: the last digit is significant (R65, D8). -/
theorem decodeWord_9xyN (x y : RegIx) (n : Nibble) :
    decodeWord (encodeXYN 0x9#4 x y n) = if n = 0#4 then some (.sneVxVy x y) else none := by
  simp only [decodeWord, decodeFields, decodeFamily9, op_encodeXYN, x_encodeXYN, y_encodeXYN, n_encodeXYN]
  rfl

end Sys2Proof

namespace Sys2Proof.Machine

open Sys2Proof.Safety

/-! ## The stack unit -/

/-- `Pop` undoes the `Push` before it (R95, R96). -/
theorem State.pop_of_push {s t : State} {w : Word} (h : s.push w = .ok t) : t.pop = .ok (w, s) := by
  rcases s.push_cases w with ⟨-, hp⟩ | ⟨-, hp⟩ <;> cases hp.symm.trans h
  rfl

/-- Settles O54: `Pop` undoes `Push`; otherwise it takes the top entry, or underflows where there is none. -/
theorem popReturnsLastPushed : Obligations.PopReturnsLastPushed := by
  intro s
  refine ⟨fun w t => State.pop_of_push, ?_⟩
  rcases s.pop_cases with ⟨hs, hp⟩ | ⟨w, rest, hs, hp⟩ <;> rw [hs, hp]
  · exact ⟨fun hne => absurd rfl hne, fun _ => rfl⟩
  · exact ⟨fun _ => ⟨w, _, rfl, rfl, rfl⟩, nofun⟩

/-! ## The return and the call -/

theorem exec_ret_of_cons {s : State} {w : Word} {rest : List Word} (h : s.stack = w :: rest) :
    exec .ret s = .next ({ s with stack := rest }.complete w) := by
  rcases exec_ret_cases s with ⟨hs, -⟩ | ⟨v, tail, hs, he⟩ <;> cases hs.symm.trans h
  exact he

theorem exec_ret_of_nil {s : State} (h : s.stack = []) : exec .ret s = .next (s.raise .stackUnderflow) := by
  rcases exec_ret_cases s with ⟨-, he⟩ | ⟨v, tail, hs, -⟩
  · exact he
  · cases hs.symm.trans h

theorem exec_call_of_room {s : State} (h : StackHasRoom s) (nnn : Addr12) :
    exec (.call nnn) s = .next ({ s with stack := s.npc :: s.stack }.complete nnn.toWord) :=
  (exec_call_cases nnn s).elim And.right fun full => absurd h full.1

theorem exec_call_of_full {s : State} (h : ¬ StackHasRoom s) (nnn : Addr12) :
    exec (.call nnn) s = .next (s.raise (.stackOverflow s.npc)) :=
  (exec_call_cases nnn s).elim (fun room => absurd room.1 h) And.right

/-- Replacing the stack is the one write of the return and of the call. -/
theorem completesWith_setStack (s : State) (stack : List Word) (npc : Word) :
    CompletesWith { stack := True } s ({ s with stack := stack }.complete npc) :=
  ((Writes.refl { stack := True } s).setStack trivial stack).completesWith npc

/-- Settles O28: the encoding of RET is its one word, and the stack decides between the pop and the underflow. -/
theorem retPopsOrUnderflows : Obligations.RetPopsOrUnderflows := by
  refine ⟨fun w => decodeWord_eq_some_iff, fun s => ⟨fun w rest hs => ?_, exec_ret_of_nil⟩⟩
  exact ⟨_, exec_ret_of_cons hs, completesWith_setStack s rest w, rfl, rfl, fun hgt => ⟨_, State.fetch_of_gt hgt⟩⟩

/-- Settles O30: the room on the stack decides between the push and the overflow. -/
theorem callPushesOrOverflows : Obligations.CallPushesOrOverflows := by
  refine fun nnn s => ⟨fun hroom => ?_, fun hfull => exec_call_of_full hfull nnn⟩
  exact ⟨_, exec_call_of_room hroom nnn, completesWith_setStack s _ _, nnn.toNat_toWord, rfl⟩

/-- Two ticks count a timer down by two (R87). -/
theorem toNat_countDown_countDown (b : Byte) : (countDown (countDown b)).toNat = b.toNat - 2 := by
  rw [toNat_countDown, toNat_countDown, Nat.sub_sub]

/-- Settles O31: the call leads to `nnn` with the address after it on top of the stack, where the core, whose memory
the call has not written, fetches the return that pops this address. -/
theorem callThenReturn : Obligations.CallThenReturn := by
  intro s nnn hrun hroom hcall hret
  have hstepCall := step_of_instr hrun hcall (exec_call_of_room hroom nnn)
  refine ⟨_, _, hstepCall, nnn.toNat_toWord, step_of_instr hrun ?fetch (exec_ret_of_cons rfl), rfl, rfl, hrun,
    toNat_countDown_countDown s.dt, toNat_countDown_countDown s.st, rfl, rfl⟩
  case fetch => exact (State.fetch_congr rfl rfl).trans hret

/-! ## Jumps and skips -/

/-- An instruction that only transfers control writes nothing before it completes (R86). -/
theorem completesWith_transfer (s : State) (npc : Word) : CompletesWith {} s (s.complete npc) :=
  (Writes.refl {} s).completesWith npc

/-- Settles O29: both jumps complete at their target, and a fetch there faults when it would run past memory. -/
theorem jumpTargets : Obligations.JumpTargets := by
  refine fun nnn s => ⟨decodeWord_encode (.jp nnn), decodeWord_encode (.jpV0Nnn nnn), ?_, ?_⟩
  · exact ⟨_, rfl, completesWith_transfer s _, nnn.toNat_toWord, fun hgt => ⟨_, State.fetch_of_gt hgt⟩⟩
  · exact ⟨_, rfl, completesWith_transfer s _, s.toNat_indexedTarget nnn, fun hgt => ⟨_, State.fetch_of_gt hgt⟩⟩

section
variable {i : Instr} {s : State} {cond : Bool} {p : Prop} [Decidable p]

/-- An instruction that skips if `p` (R99). -/
theorem exec_skip_if (h : exec i s = .next (s.complete (s.skipTarget cond))) (hp : cond = true ↔ p) :
    ∃ t, exec i s = .next t ∧ CompletesWith {} s t ∧ t.pc = if p then s.pc + 4#16 else s.pc + 2#16 := by
  refine ⟨_, h, completesWith_transfer s _, ?_⟩
  simp only [State.complete_pc, State.skipTarget_eq, hp]

/-- An instruction that skips unless `p` (R99). -/
theorem exec_skip_unless (h : exec i s = .next (s.complete (s.skipTarget cond))) (hp : cond = true ↔ ¬ p) :
    ∃ t, exec i s = .next t ∧ CompletesWith {} s t ∧ t.pc = if p then s.pc + 2#16 else s.pc + 4#16 := by
  simpa only [ite_not] using exec_skip_if h hp

end

/-- Settles O32: the words by the decoder's laws, and each skip by its condition. -/
theorem skipsOnCondition : Obligations.SkipsOnCondition := fun x y kk _ =>
  ⟨⟨decodeWord_encode (.seVxKk x kk), exec_skip_if rfl beq_iff_eq⟩,
    ⟨decodeWord_encode (.sneVxKk x kk), exec_skip_unless rfl bne_iff_ne⟩,
    ⟨decodeWord_5xyN x y, exec_skip_if rfl beq_iff_eq⟩,
    ⟨decodeWord_9xyN x y, exec_skip_unless rfl bne_iff_ne⟩⟩

end Sys2Proof.Machine
end

section
/-! Register instructions (spec/42_alu.md R110 to R123): the loads, the arithmetic, the logic, the shifts and the random byte, each by the order in which it writes Vx and VF. -/

namespace Sys2Proof.Machine

open Sys2Proof.Safety

/-! ## Which registers an instruction writes, and in which order -/

section
variable {i : Instr} {s : State} {x : RegIx} {b : Byte} {cond : Bool} {P : State → Prop}

/-- An instruction that writes Vx alone. -/
theorem exec_writes_reg (h : exec i s = .next ((s.setReg x b).complete s.npc)) (hP : ∀ t, t.reg x = b → P t) :
    ∃ t, exec i s = .next t ∧ CompletesWith { regs := fun r => r = x } s t ∧ t.pc = s.pc + 2#16 ∧ P t :=
  ⟨_, h, ((Writes.refl { regs := fun r => r = x } s).setReg rfl b).completesWith _, rfl, hP _ (by simp)⟩

/-- An instruction that writes Vx, then VF: the flag is what VF keeps (R116, R117, D9). -/
theorem exec_writes_reg_then_flag (h : exec i s = .next (((s.setReg x b).setFlag cond).complete s.npc))
    (hP : ∀ t, (x ≠ regVF → t.reg x = b) → t.reg regVF = flagByte cond → P t) :
    ∃ t, exec i s = .next t ∧ CompletesWith { regs := fun r => r = x ∨ r = regVF } s t ∧ t.pc = s.pc + 2#16 ∧ P t :=
  have writes := ((Writes.refl { regs := fun r => r = x ∨ r = regVF } s).setReg (.inl rfl) b).setFlag (.inr rfl) cond
  ⟨_, h, writes.completesWith _, rfl, hP _ (fun hx => by simp [hx]) (by simp)⟩

/-- An instruction that writes VF, then Vx: the value is what Vx keeps (R118, R119, R120, D9). -/
theorem exec_writes_flag_then_reg (h : exec i s = .next (((s.setFlag cond).setReg x b).complete s.npc))
    (hP : ∀ t, (x ≠ regVF → t.reg regVF = flagByte cond) → t.reg x = b → P t) :
    ∃ t, exec i s = .next t ∧ CompletesWith { regs := fun r => r = x ∨ r = regVF } s t ∧ t.pc = s.pc + 2#16 ∧ P t :=
  have writes := ((Writes.refl { regs := fun r => r = x ∨ r = regVF } s).setFlag (.inr rfl) cond).setReg (.inl rfl) b
  ⟨_, h, writes.completesWith _, rfl, hP _ (fun hx => by simp [hx.symm]) (by simp)⟩

/-- An instruction that writes VF, then shifts what Vx holds then: the old Vx, or the flag where Vx is VF (D9). -/
theorem exec_shifts_in_place {shift : Byte → Byte}
    (h : exec i s = .next (((s.setFlag cond).setReg x (shift ((s.setFlag cond).reg x))).complete s.npc))
    (hP : ∀ t, (x ≠ regVF → t.reg x = shift (s.reg x) ∧ t.reg regVF = flagByte cond) →
      (x = regVF → t.reg regVF = shift (flagByte cond)) → P t) :
    ∃ t, exec i s = .next t ∧ CompletesWith { regs := fun r => r = x ∨ r = regVF } s t ∧ t.pc = s.pc + 2#16 ∧ P t := by
  refine exec_writes_flag_then_reg h fun t hf hx => hP t (fun hne => ?_) (fun he => ?_)
  · rw [hx, hf hne, State.reg_setFlag, if_neg hne]
    exact ⟨rfl, rfl⟩
  · rw [← he, hx, State.reg_setFlag, if_pos he]

end

/-! ## The flags and the difference as numbers -/

theorem toNat_flagByte_carryOf (a b : Byte) :
    (flagByte (carryOf a b)).toNat = if a.toNat + b.toNat > 255 then 1 else 0 := by
  simp only [toNat_flagByte, carryOf, decide_eq_true_iff]

theorem toNat_flagByte_greaterOf (a b : Byte) :
    (flagByte (greaterOf a b)).toNat = if a.toNat > b.toNat then 1 else 0 := by
  simp only [toNat_flagByte, greaterOf, decide_eq_true_iff]

theorem toNat_flagByte_atMostOf (a b : Byte) :
    (flagByte (atMostOf a b)).toNat = if a.toNat ≤ b.toNat then 1 else 0 := by
  simp only [toNat_flagByte, atMostOf, decide_eq_true_iff]

/-- A flag that holds a bit of a byte (R118, R120). -/
theorem toNat_flagByte_getLsbD (a : Byte) (k : Nat) : (flagByte (a.getLsbD k)).toNat = a.toNat / 2 ^ k % 2 := by
  have hflag : ∀ cond : Bool, (flagByte cond).toNat = cond.toNat := by decide
  rw [hflag, BitVec.getLsbD, Nat.toNat_testBit]

theorem toNat_flagByte_lowBitOf (a : Byte) : (flagByte (lowBitOf a)).toNat = a.toNat % 2 := by
  rw [lowBitOf, toNat_flagByte_getLsbD, Nat.pow_zero, Nat.div_one]

theorem toNat_flagByte_highBitOf (a : Byte) : (flagByte (highBitOf a)).toNat = a.toNat / 128 := by
  rw [highBitOf, toNat_flagByte_getLsbD]
  omega

theorem Byte.toNat_sub (a b : Byte) : (a - b).toNat = (a.toNat + 256 - b.toNat) % 256 := by
  rw [BitVec.toNat_sub]
  omega

theorem Byte.toNat_shiftRight_one (a : Byte) : (a >>> 1).toNat = a.toNat / 2 := by
  rw [BitVec.toNat_ushiftRight, Nat.shiftRight_eq_div_pow, Nat.pow_one]

theorem Byte.toNat_shiftLeft_one (a : Byte) : (a <<< 1).toNat = a.toNat * 2 % 256 := by
  rw [BitVec.toNat_shiftLeft, Nat.shiftLeft_eq]

/-! ## Vx, then the flag -/

/-- Settles O35: the sum is written before the carry, which VF keeps. -/
theorem addSetsCarry : Obligations.AddSetsCarry := fun x y s =>
  ⟨decodeWord_encode (.addVxVy x y), exec_writes_reg_then_flag rfl fun _ hx hf =>
    ⟨fun hne => by rw [hx hne, BitVec.toNat_add], by rw [hf, toNat_flagByte_carryOf]⟩⟩

/-- Settles O36: the difference is written before the flag, which VF keeps. -/
theorem subSetsStrictFlag : Obligations.SubSetsStrictFlag := fun x y s =>
  ⟨decodeWord_encode (.subVxVy x y), exec_writes_reg_then_flag rfl fun _ hx hf =>
    ⟨fun hne => by rw [hx hne, Byte.toNat_sub]; split <;> omega, by rw [hf, toNat_flagByte_greaterOf]⟩⟩

/-! ## The flag, then Vx from what the registers hold after it -/

/-- Settles O37: the flag is written first; where it is Vx itself, the shift moves the flag. -/
theorem shiftsInPlace : Obligations.ShiftsInPlace := by
  intro x y s
  constructor
  · refine exec_shifts_in_place (shift := (· >>> 1)) rfl fun t hother hVF => ⟨fun hne => ?_, fun he => ?_⟩
    · obtain ⟨hx, hf⟩ := hother hne
      rw [hx, hf]
      exact ⟨Byte.toNat_shiftRight_one _, toNat_flagByte_lowBitOf _⟩
    · rw [hVF he, Byte.toNat_shiftRight_one, toNat_flagByte_lowBitOf]
      omega
  · refine exec_shifts_in_place (shift := (· <<< 1)) rfl fun t hother hVF => ⟨fun hne => ?_, fun he => ?_⟩
    · obtain ⟨hx, hf⟩ := hother hne
      rw [hx, hf]
      exact ⟨Byte.toNat_shiftLeft_one _, toNat_flagByte_highBitOf _⟩
    · rw [hVF he, Byte.toNat_shiftLeft_one, toNat_flagByte_highBitOf]
      omega

/-- Settles O38: the flag is written first, and the difference reads it where an operand is VF. -/
theorem subnFlagThenDifference : Obligations.SubnFlagThenDifference := by
  rintro x y s _ rfl
  refine exec_writes_flag_then_reg rfl fun t hf hx => ?_
  rw [State.reg_setFlag, State.reg_setFlag] at hx
  rw [← toNat_flagByte_atMostOf]
  refine ⟨fun hne => by rw [hf hne], fun hne hy => ?_, fun hne hy => ?_, fun he hy => ?_, fun he hy => ?_⟩
  · rw [hx, if_neg hne, if_neg hy, Byte.toNat_sub]
  · rw [hx, if_neg hne, if_pos hy, Byte.toNat_sub]
  · rw [← he, hx, if_pos he, if_neg hy, Byte.toNat_sub]
  · rw [← he, hx, if_pos he, if_pos hy, BitVec.sub_self, BitVec.toNat_zero]

/-! ## Vx alone -/

/-- Settles O33: each of the three writes its value to Vx alone. -/
theorem loadsAndImmediateAdd : Obligations.LoadsAndImmediateAdd := fun x y kk s =>
  ⟨⟨decodeWord_encode (.ldVxKk x kk), exec_writes_reg rfl fun _ hx => hx⟩,
    ⟨decodeWord_encode (.addVxKk x kk), exec_writes_reg rfl fun _ hx => by rw [hx, BitVec.toNat_add]⟩,
    ⟨decodeWord_encode (.ldVxVy x y), exec_writes_reg rfl fun _ hx => hx⟩⟩

/-- Settles O34: each of the three writes its value, an operation on each bit, to Vx alone. -/
theorem logicBitByBit : Obligations.LogicBitByBit := fun x y s =>
  ⟨⟨decodeWord_encode (.orVxVy x y), exec_writes_reg rfl fun _ hx k _ => by rw [hx, BitVec.getLsbD_or]⟩,
    ⟨decodeWord_encode (.andVxVy x y), exec_writes_reg rfl fun _ hx k _ => by rw [hx, BitVec.getLsbD_and]⟩,
    ⟨decodeWord_encode (.xorVxVy x y), exec_writes_reg rfl fun _ hx k _ => by rw [hx, BitVec.getLsbD_xor]⟩⟩

/-- Settles O39: the masked byte of the step's input is written to Vx alone. -/
theorem randomByteMasked : Obligations.RandomByteMasked := fun x kk s =>
  ⟨decodeWord_encode (.rndVxKk x kk), exec_writes_reg rfl fun _ hx k _ => by rw [hx, BitVec.getLsbD_and]⟩

/-- Settles O55: the step executes the load it fetched, which completes and writes its operand to Vx alone. -/
theorem loadImmediateYieldsOperand : Obligations.LoadImmediateYieldsOperand := by
  refine fun x kk => ⟨decodeWord_encode (.ldVxKk x kk), fun s hrun hf => ?_⟩
  obtain ⟨t, hexec, hframe, -, hx⟩ :=
    exec_writes_reg (i := .ldVxKk x kk) (s := s) (P := fun t => t.reg x = kk) rfl fun _ hx => hx
  exact ⟨t.consumeInput, step_of_instr hrun hf hexec, hframe.run.trans hrun, hx, hframe.regs⟩

end Sys2Proof.Machine
end

section
/-! The index register and the memory transfers (spec/43_index_memory.md R130 to R136): the three writers of `I`, the two stores as one store of consecutive bytes, the load, and the load after the store. -/

namespace Sys2Proof.Machine

open Sys2Proof.Safety

/-! ## Storing bytes at `I` -/

section
variable {i : Instr} {s : State} {bytes : List Byte} {last : Nat}

/-- An instruction that stores `last + 1` bytes at `I`, the whole range being inside memory (R47, R49). -/
theorem exec_stores_of_le (hwf : s.mem.wf = true) (hlen : bytes.length = last + 1)
    (h : exec i s = .next (s.orRaise ((s.memWrite s.baseAddr bytes).map fun t => t.complete s.npc)))
    (hin : s.i.toNat + last ≤ 0xFFF) :
    ∃ t, exec i s = .next t ∧
      CompletesWith { mem := fun a => s.i.toNat ≤ a ∧ a ≤ s.i.toNat + last } s t ∧ t.pc = s.pc + 2#16 ∧
      ∀ k ≤ last, t.mem.read (s.i.toNat + k) = bytes.getD k 0x00#8 := by
  have hfit : s.i.toNat + bytes.length ≤ Config.memSize := by simp only [Config.memSize]; omega
  have hw := State.memWrite_of_le (s := s) (addr := s.i.toNat) (.inr hfit)
  rw [State.baseAddr, hw, State.orRaise_map_ok] at h
  have writes : Writes { mem := fun a => s.i.toNat ≤ a ∧ a ≤ s.i.toNat + last } s _ :=
    .of_memWrite hw fun a hle hlt => ⟨hle, by omega⟩
  refine ⟨_, h, writes.completesWith _, rfl, fun k hk => ?_⟩
  rw [State.complete_mem, Memory.read_writeBytes hwf hfit, if_pos (by omega), Nat.add_sub_cancel_left]

/-- The same instruction, the range running past memory: nothing is stored (R47, R175). -/
theorem exec_stores_of_gt (hlen : bytes.length = last + 1)
    (h : exec i s = .next (s.orRaise ((s.memWrite s.baseAddr bytes).map fun t => t.complete s.npc)))
    (hout : 0xFFF < s.i.toNat + last) : exec i s = .next (s.raise (rangeFault s.i.toNat)) := by
  have hgt : Config.memSize < s.i.toNat + bytes.length := by simp only [Config.memSize]; omega
  rw [h, State.baseAddr, State.memWrite_of_gt (by omega) hgt, State.orRaise_map_error]

end

/-- Settles O42: a store of three bytes, the digits of Vx, each of which fits in a byte. -/
theorem decimalDigitsStored : Obligations.DecimalDigitsStored := by
  intro x s hwf
  have hlen : (decimalDigits (s.reg x)).length = 2 + 1 := rfl
  constructor
  · intro hin
    obtain ⟨t, hexec, hframe, hpc, hread⟩ :=
      exec_stores_of_le (i := .ldBVx x) hwf hlen rfl (Nat.add_le_add_right hin 2)
    have hVx := (s.reg x).isLt
    refine ⟨t, hexec, hframe, hpc, ?hundreds, ?tens, ?ones⟩
    case hundreds => exact (congrArg BitVec.toNat (hread 0 (by decide))).trans (Nat.mod_eq_of_lt (by omega))
    case tens => exact (congrArg BitVec.toNat (hread 1 (by decide))).trans (Nat.mod_eq_of_lt (by omega))
    case ones => exact (congrArg BitVec.toNat (hread 2 (by decide))).trans (Nat.mod_eq_of_lt (by omega))
  · exact fun hout => exec_stores_of_gt hlen rfl (Nat.add_lt_add_right hout 2)

/-- Settles O43: a store of the `x + 1` bytes that the registers V0 to Vx hold. -/
theorem registersStored : Obligations.RegistersStored := by
  intro x s hwf
  obtain ⟨hlen, hget⟩ := s.regRange_spec x
  constructor
  · intro hin
    obtain ⟨t, hexec, hframe, hpc, hread⟩ := exec_stores_of_le (i := .ldMemVx x) hwf hlen rfl hin
    exact ⟨t, hexec, hframe, hpc, fun r hr => (hread r.toNat hr).trans (hget r hr)⟩
  · exact exec_stores_of_gt hlen rfl

/-! ## Loading registers from `I` -/

/-- Fx65, the whole range being inside memory (R135). -/
theorem exec_ldVxMem_of_le {x : RegIx} {s : State} (h : s.i.toNat + x.toNat ≤ 0xFFF) :
    exec (.ldVxMem x) s = .next ((s.setRegRange (s.mem.readBytes s.i.toNat (rangeCount x))).complete s.npc) := by
  have hfit : s.i.toNat + rangeCount x ≤ Config.memSize := Nat.succ_le_succ h
  rw [exec, execLdVxMem, State.baseAddr, State.memRead_of_le (.inr hfit), State.orRaise_map_ok]

/-- Fx65, the range running past memory (R47, R175). -/
theorem exec_ldVxMem_of_gt {x : RegIx} {s : State} (h : 0xFFF < s.i.toNat + x.toNat) :
    exec (.ldVxMem x) s = .next (s.raise (rangeFault s.i.toNat)) := by
  have hne : rangeCount x ≠ 0 := Nat.succ_ne_zero _
  have hgt : Config.memSize < s.i.toNat + rangeCount x := Nat.succ_lt_succ h
  rw [exec, execLdVxMem, State.baseAddr, State.memRead_of_gt hne hgt, State.orRaise_map_error]

/-- The registers V0 to Vx after loading as many bytes of memory, and the ones above as before (R135). -/
theorem State.reg_setRegRange_readBytes (s : State) (m : Memory) (addr : Nat) (x r : RegIx) :
    (s.setRegRange (m.readBytes addr (rangeCount x))).reg r =
      if r.toNat ≤ x.toNat then m.read (addr + r.toNat) else s.reg r := by
  rw [State.reg_setRegRange, Memory.length_readBytes]
  by_cases hr : r.toNat ≤ x.toNat
  · have hlt : r.toNat < rangeCount x := Nat.lt_succ_of_le hr
    rw [if_pos hlt, if_pos hr, Memory.getD_readBytes hlt]
  · have hge : ¬ r.toNat < rangeCount x := fun hlt => hr (Nat.le_of_lt_succ hlt)
    rw [if_neg hge, if_neg hr]

/-- Settles O44: in range Fx65 loads the bytes it reads into V0 to Vx, the only registers it writes. -/
theorem registersLoaded : Obligations.RegistersLoaded := by
  intro x s
  constructor
  · intro hin
    have writes := (Writes.refl { regs := fun r => r.toNat ≤ x.toNat } s).setRegRange
      (bytes := s.mem.readBytes s.i.toNat (rangeCount x)) fun r hr => by
        rw [Memory.length_readBytes] at hr
        exact Nat.le_of_lt_succ hr
    refine ⟨_, exec_ldVxMem_of_le hin, writes.completesWith _, rfl, fun r hr => ?_⟩
    rw [State.reg_complete, State.reg_setRegRange_readBytes, if_pos hr]
  · exact exec_ldVxMem_of_gt

/-- Settles O45: by O44 the load reads at `I` what O43 says the store left there. -/
theorem loadRestoresStoredRegisters : Obligations.LoadRestoresStoredRegisters := by
  intro x s t t' hwf hin hstore hmem hindex
  obtain ⟨t₀, hstore₀, -, -, hstored⟩ := (registersStored x s hwf).1 hin
  cases hstore₀.symm.trans hstore
  obtain ⟨u, hload, hframe, -, hloaded⟩ := (registersLoaded x t').1 (hindex ▸ hin)
  refine ⟨u, hload, fun r hr => ?_, fun r hr => hframe.regs r (Nat.not_le.2 hr)⟩
  rw [hloaded r hr, hmem, hindex, hstored r hr]

/-! ## Writing `I` -/

/-- An instruction that writes `I` alone. -/
theorem exec_writes_index {i : Instr} {s : State} {a : Word} {P : State → Prop}
    (h : exec i s = .next ({ s with i := a }.complete s.npc)) (hP : ∀ t, t.i = a → P t) :
    ∃ t, exec i s = .next t ∧ CompletesWith { index := True } s t ∧ t.pc = s.pc + 2#16 ∧ P t :=
  ⟨_, h, ((Writes.refl { index := True } s).setIndex trivial a).completesWith _, rfl, hP _ rfl⟩

/-- `zext_16` keeps the number (R6). -/
theorem Byte.toNat_toWord (b : Byte) : b.toWord.toNat = b.toNat := BitVec.toNat_setWidth_of_le (by decide)

/-- A glyph address does not wrap (R132). -/
theorem toNat_glyphAddr (b : Byte) : (glyphAddr b).toNat = 0x050 + 5 * (b.toNat % 16) := by
  rw [glyphAddr, Config.fontBase, BitVec.toNat_ofNat]
  omega

/-- Settles O40: both instructions write their address to `I` alone. -/
theorem indexSetToAddress : Obligations.IndexSetToAddress := fun nnn x s =>
  ⟨⟨decodeWord_encode (.ldINnn nnn), exec_writes_index rfl fun _ hi => by rw [hi, nnn.toNat_toWord]⟩,
    ⟨decodeWord_encode (.ldFVx x), exec_writes_index rfl fun _ hi => by rw [hi, toNat_glyphAddr]⟩⟩

/-- Settles O41: the sum of two 16-bit words, the second the extended Vx, is written to `I` alone. -/
theorem indexAddWrapsAt16Bits : Obligations.IndexAddWrapsAt16Bits := fun x s =>
  exec_writes_index rfl fun _ hi => by rw [hi, BitVec.toNat_add, Byte.toNat_toWord]

end Sys2Proof.Machine
end

section
/-! The display (spec/44_display.md R140 to R143): the clear, the sprite that a draw reads at `I` and flips onto the grid, and the second draw of the same sprite. -/

namespace Sys2Proof.Machine

open Sys2Proof.Safety

/-! ## The clear -/

/-- Settles O46: the encoding of CLS is its one word, and it replaces the display by the one of reset. -/
theorem clearTurnsPixelsOff : Obligations.ClearTurnsPixelsOff := by
  refine ⟨fun w => decodeWord_eq_some_iff, fun s => ⟨_, rfl, ?frame, rfl, fun r c => ?off⟩⟩
  case frame => exact ((Writes.refl { disp := True } s).setDisp trivial blankDisplay).completesWith _
  case off => exact (State.pixel_congr (s := State.reset) rfl r c).trans (pixel_reset r c)

/-! ## The sprite -/

/-- The rows that a draw reads at `I` light the pixels of the sprite (R141). -/
theorem rowsLit_readBytes (s : State) (x y : RegIx) (n : Nibble) (r c : Nat) :
    rowsLit (s.spriteRow y) (s.spriteCol x) (s.mem.readBytes s.i.toNat n.toNat) r c = spriteLit s x y n r c := by
  rw [rowsLit, Memory.length_readBytes, Bool.eq_iff_iff, Bool.and_eq_true, spriteLit, Bool.and_eq_true]
  refine and_congr_right fun hin => ?_
  obtain ⟨hle, hlt, -, -⟩ := of_decide_eq_true hin
  rw [Memory.getD_readBytes (by omega)]
  rfl

/-- The sprite depends on the two coordinates, on `I` and on what memory reads as. -/
theorem spriteLit_congr {s t : State} {x y : RegIx} (hx : t.reg x = s.reg x) (hy : t.reg y = s.reg y)
    (hi : t.i = s.i) (hmem : ∀ a, t.mem.read a = s.mem.read a) (n : Nibble) (r c : Nat) :
    spriteLit t x y n r c = spriteLit s x y n r c := by
  simp only [spriteLit, hx, hy, hi, hmem]

/-! ## The draw -/

/-- A draw flips the pixels its rows light (R141). -/
theorem State.pixel_draw (s : State) (x y : RegIx) (rows : List Byte) (r : Fin 32) (c : Fin 64) :
    (s.draw x y rows).pixel r c = (s.pixel r c != rowsLit (s.spriteRow y) (s.spriteCol x) rows r c) :=
  disp_blitRows _ _ rows { disp := s.disp, collision := false } r c r.isLt c.isLt

/-- A flag is 0 or 1, and 1 exactly when its condition holds (R21). -/
theorem toNat_flagByte_spec (cond : Bool) :
    ((flagByte cond).toNat = 0 ∨ (flagByte cond).toNat = 1) ∧ ((flagByte cond).toNat = 1 ↔ cond = true) := by
  revert cond
  decide

/-- A draw leaves VF at 0 or 1, and at 1 exactly when its rows light a pixel that was on (R141). -/
theorem State.toNat_regVF_draw (s : State) (x y : RegIx) (rows : List Byte) :
    (((s.draw x y rows).reg regVF).toNat = 0 ∨ ((s.draw x y rows).reg regVF).toNat = 1) ∧
      (((s.draw x y rows).reg regVF).toNat = 1 ↔
        ∃ (r : Fin 32) (c : Fin 64),
          rowsLit (s.spriteRow y) (s.spriteCol x) rows r c = true ∧ s.pixel r c = true) := by
  rw [State.draw, State.reg_setFlag, if_pos rfl]
  obtain ⟨hbit, hone⟩ := toNat_flagByte_spec
    (blitRows (s.spriteRow y) (s.spriteCol x) rows { disp := s.disp, collision := false }).collision
  exact ⟨hbit, hone.trans ((collision_blitRows _ _ _ _).trans (or_iff_right Bool.false_ne_true))⟩

/-- Dxyn, all its rows being inside memory, or none being read (R141, D12). -/
theorem exec_drwVxVyN_of_le {n : Nibble} {s : State} (h : n = 0#4 ∨ s.i.toNat + n.toNat - 1 ≤ 0xFFF) (x y : RegIx) :
    exec (.drwVxVyN x y n) s = .next ((s.draw x y (s.mem.readBytes s.i.toNat n.toNat)).complete s.npc) := by
  have hfit : n.toNat = 0 ∨ s.i.toNat + n.toNat ≤ Config.memSize :=
    h.imp (congrArg BitVec.toNat) fun hle => by simp only [Config.memSize]; omega
  rw [exec, execDrwVxVyN, State.baseAddr, State.memRead_of_le hfit, State.orRaise_map_ok]

/-- Dxyn, its rows running past memory: nothing is drawn (R47, R175). -/
theorem exec_drwVxVyN_of_gt {n : Nibble} {s : State} (hn : n ≠ 0#4) (h : 0xFFF < s.i.toNat + n.toNat - 1)
    (x y : RegIx) : exec (.drwVxVyN x y n) s = .next (s.raise (rangeFault s.i.toNat)) := by
  have hne : n.toNat ≠ 0 := fun h0 => hn (BitVec.eq_of_toNat_eq h0)
  have hgt : Config.memSize < s.i.toNat + n.toNat := by simp only [Config.memSize]; omega
  rw [exec, execDrwVxVyN, State.baseAddr, State.memRead_of_gt hne hgt, State.orRaise_map_error]

/-- Settles O47: in range Dxyn draws the rows it reads, which light what the sprite lights; it writes the display and
VF alone. -/
theorem drawFlipsSpritePixels : Obligations.DrawFlipsSpritePixels := by
  intro x y n s
  constructor
  · intro hin
    have writes : Writes { regs := fun r => r = regVF, disp := True } s
        (s.draw x y (s.mem.readBytes s.i.toNat n.toNat)) :=
      ((Writes.refl _ s).setDisp trivial _).setFlag rfl _
    refine ⟨_, exec_drwVxVyN_of_le hin x y, writes.completesWith _, rfl, fun r c => ?flips, ?flag⟩
    case flips => rw [State.pixel_complete, State.pixel_draw, rowsLit_readBytes]
    case flag =>
      simpa only [State.reg_complete, rowsLit_readBytes] using
        s.toNat_regVF_draw x y (s.mem.readBytes s.i.toNat n.toNat)
  · rintro ⟨hn, hout⟩
    exact exec_drwVxVyN_of_gt hn hout x y

/-! ## The second draw -/

/-- Settles O48: by O47 the first draw keeps all that the sprite depends on, so the second flips the same pixels back;
a lit pixel that is on between the two draws was off before them. -/
theorem doubleDrawRestoresDisplay : Obligations.DoubleDrawRestoresDisplay := by
  intro x y n s t hin hdraw hx hy
  obtain ⟨t₀, hdraw₀, hframe, -, hflip, -, -⟩ := (drawFlipsSpritePixels x y n s).1 hin
  cases hdraw₀.symm.trans hdraw
  have hindex : t.i = s.i := hframe.index id
  have hlit := spriteLit_congr hx hy hindex (fun a => hframe.mem a id) n
  obtain ⟨u, hredraw, -, -, hflip', -, hVF⟩ := (drawFlipsSpritePixels x y n t).1 (hindex ▸ hin)
  simp only [hlit] at hflip' hVF
  refine ⟨u, hredraw, fun r c => ?_, hVF, hVF.trans ?_⟩
  · rw [hflip', hflip, Bool.bne_assoc, bne_self_eq_false, Bool.bne_false]
  · refine exists_congr fun r => exists_congr fun c => and_congr_right fun h => ?_
    rw [hflip, h, Bool.bne_true, Bool.not_eq_true']

end Sys2Proof.Machine
end

section
/-! The keys and the timers (spec/45_keys_timers.md R150 to R158): the skips by the held key, the key wait and the key press that ends it, the transfers of the timers, and the delay timer over a run of completions. -/

namespace Sys2Proof.Machine

open Sys2Proof.Safety

/-! ## The skips by the held key -/

/-- `KeyDown` of Vx at this step (R150, R152). -/
theorem keyDown_eq_true_iff_keyHeld (x : RegIx) (s : State) :
    keyDown s.input.keys (s.reg x) = true ↔ KeyHeld s x := keyDown_iff _ _

/-- Settles O49: Ex9E skips if the key is held, ExA1 unless it is. -/
theorem keySkips : Obligations.KeySkips := by
  classical
  intro x s
  have held := keyDown_eq_true_iff_keyHeld x s
  have notHeld : (!keyDown s.input.keys (s.reg x)) = true ↔ ¬ KeyHeld s x := by
    rw [Bool.not_eq_true', ← Bool.not_eq_true, held]
  have hskp := exec_skip_if (i := .skpVx x) rfl held
  have hsknp := exec_skip_unless (i := .sknpVx x) rfl notHeld
  constructor <;> intro h
  · rw [if_pos h] at hskp hsknp
    exact ⟨hskp, hsknp⟩
  · rw [if_neg h] at hskp hsknp
    exact ⟨hskp, hsknp⟩

/-! ## The key wait -/

/-- `zext_8` keeps the number (R6). -/
theorem Nibble.toNat_toByte (k : Nibble) : k.toByte.toNat = k.toNat := BitVec.toNat_setWidth_of_le (by decide)

/-- A key press completes a parked Fx0A, which writes Vx alone and runs again (R154). -/
theorem State.keyPress_completesWith {s : State} {wx : RegIx} (h : s.run = .awaitingKey wx) (k : Nibble) :
    CompletesWith { regs := fun r => r = wx } { s with run := .running } (s.keyPress k) ∧
      (s.keyPress k).pc = s.pc + 2#16 ∧ ((s.keyPress k).reg wx).toNat = k.toNat := by
  have writes := (Writes.refl { regs := fun r => r = wx } { s with run := .running }).setReg rfl k.toByte
  have hresumed : s.keyPress k = (({ s with run := .running } : State).setReg wx k.toByte).complete s.npc :=
    State.keyPress_of_parked h k
  rw [hresumed]
  refine ⟨writes.completesWith s.npc, rfl, ?_⟩
  rw [State.reg_complete, State.reg_setReg, if_pos rfl, Nibble.toNat_toByte]

/-- Settles O50: parking is the meaning of Fx0A, and leaves a parked core for the key press. -/
theorem keyWaitParksThenCompletes : Obligations.KeyWaitParksThenCompletes := fun x s =>
  ⟨rfl, State.keyPress_completesWith (s := { s with run := .awaitingKey x }) rfl⟩

/-- Settles O51: the run state decides whether the key press completes the wait or is dropped. -/
theorem keyPressOnlyResumesParked : Obligations.KeyPressOnlyResumesParked := fun _ k =>
  ⟨fun _ hparked => ⟨_, rfl, State.keyPress_completesWith hparked k⟩,
    fun hother => congrArg EventOutcome.pressed (State.keyPress_of_not_parked hother k)⟩

/-! ## The transfers of the timers -/

/-- Settles O52: Fx07 writes Vx alone, and the tick of Fx15 and Fx18 counts down the value just written. -/
theorem timerTransfers : Obligations.TimerTransfers := fun x s =>
  ⟨exec_writes_reg rfl fun _ hx => hx,
    ⟨_, rfl, ((Writes.refl { dt := True } s).setDt trivial (s.reg x)).completesWith _, rfl, toNat_countDown _⟩,
    ⟨_, rfl, ((Writes.refl { st := True } s).setSt trivial (s.reg x)).completesWith _, rfl, toNat_countDown _⟩⟩

/-! ## The delay timer over a run of completions -/

theorem writer_of_touch_dt {s : State} {i : Instr} (h : (touchOf s i).dt) : ∃ x, i = .ldDtVx x := by
  cases i with
  | ldDtVx x => exact ⟨x, rfl⟩
  | _ => exact h.elim

/-- An instruction that leaves the core running has completed, within its row of R34 (R86). -/
theorem completesWith_of_exec_running {i : Instr} {s t : State} (h : exec i s = .next t) (hrun : t.run = .running) :
    CompletesWith (touchOf s i) s t := by
  cases exec_answers h with
  | faults => cases hrun
  | parks => cases hrun
  | completes writes => exact writes.completesWith _

/-- An unrecognised word that leaves the core running was a no-op that completed (R85). -/
theorem completesWith_of_runUnrecognised_running {ir : Word} {s t : State} (h : runUnrecognised ir s = .next t)
    (hrun : t.run = .running) : CompletesWith {} s t := by
  unfold runUnrecognised at h
  split at h <;> cases h
  · cases hrun
  · exact completesWith_transfer s s.npc

/-- Every completion but Fx15 counts the delay timer down once (R87). -/
theorem toNat_dt_of_completes {c : Completion} {s t : State} (h : Completes c s t)
    (hc : ∀ z, c ≠ .instr (.ldDtVx z)) : t.dt.toNat = s.dt.toNat - 1 := by
  cases h with
  | instr i _ _ ht hrun =>
    refine (completesWith_of_exec_running ht hrun).dt fun hdt => ?_
    obtain ⟨z, rfl⟩ := writer_of_touch_dt hdt
    exact hc z rfl
  | unrecognised ir _ _ _ ht hrun => exact (completesWith_of_runUnrecognised_running ht hrun).dt id
  | keyWait x k _ parked inputs draws ht =>
    cases ht
    exact (State.keyPress_completesWith rfl k).1.dt id

/-- As many completions as there are, none of them Fx15, count the delay timer down as often (R158). -/
theorem toNat_dt_of_executes {cs : List Completion} {s t : State} (h : Executes cs s t)
    (hcs : ∀ c ∈ cs, ∀ z, c ≠ .instr (.ldDtVx z)) : t.dt.toNat = s.dt.toNat - cs.length := by
  induction h with
  | done s => rfl
  | more c rest s t u hc _ ih =>
    rw [List.forall_mem_cons] at hcs
    obtain ⟨hhead, htail⟩ := hcs
    rw [ih htail, toNat_dt_of_completes hc hhead, Nat.sub_sub, Nat.add_comm, List.length_cons]

/-- Settles O21: Fx15 leaves `v - 1` (O52), each completion counts down once more, and Fx07 reads what is left. -/
theorem delayTimerCountsInstructions : Obligations.DelayTimerCountsInstructions := by
  intro x y between s t u _ hset hrun hbetween
  obtain ⟨-, ⟨t₀, hset₀, -, -, hdt⟩, -⟩ := timerTransfers x s
  cases hset₀.symm.trans hset
  obtain ⟨⟨w, hread, -, -, hy⟩, -, -⟩ := timerTransfers y u
  refine ⟨w, hread, ?_⟩
  rw [hy, toNat_dt_of_executes hrun hbetween, hdt, Nat.sub_sub, Nat.add_comm]

end Sys2Proof.Machine
end

section
/-! Exceptions (spec/60_exceptions.md R175 to R177): a faulted core is stopped until it is reset. -/

namespace Sys2Proof.Machine

/-- A key press on a faulted core is dropped (R154, R177): only a parked core has an Fx0A to complete. -/
theorem State.keyPress_of_faulted {s : State} {f : Fault} (h : s.run = .faulted f) (k : Nibble) :
    s.keyPress k = s := by
  have hnotParked : ∀ wx, s.run ≠ .awaitingKey wx := fun wx hparked => by cases h.symm.trans hparked
  exact State.keyPress_of_not_parked hnotParked k

/-- Settles O11: the step, the `step` event and the key press of a faulted core, each by its own lemma. -/
theorem faultedCoreStaysFaulted : Obligations.FaultedCoreStaysFaulted := fun _ _ hfaulted =>
  ⟨step_of_faulted hfaulted, State.stepEvent_of_faulted hfaulted,
    fun k => congrArg EventOutcome.pressed (State.keyPress_of_faulted hfaulted k)⟩

end Sys2Proof.Machine
end

section
/-! Reset and load (spec/70_reset_and_hazards.md R200 to R204): the parameters between two loads, the image and the machine that `reset_load` builds, and the programs it rejects. -/

namespace Sys2Proof.Machine

open Sys2Proof.Safety

/-! ## The parameters between two loads -/

/-- Settles O20: by the cases of a step; an instruction keeps the parameters, and so does what a fault, a no-op or a
key press does. -/
theorem stepKeepsParameters : Obligations.StepKeepsParameters := by
  intro s t h
  rcases step_cases h with ⟨-, i, u, -, hu, rfl⟩ | ⟨-, f, -, rfl⟩ | ⟨-, ir, -, rfl⟩ | ⟨wx, hrun, rfl⟩
  · exact (exec_answers hu).params_eq
  · rfl
  · split <;> rfl
  · rcases State.parkedStep_cases hrun with hp | ⟨k, hp⟩ <;> rw [hp] <;> rfl

/-! ## The programs that are rejected, and the machine that any other one gives (R200, R201) -/

theorem loadError?_of_empty {program : List Byte} (h : program.length = 0) :
    loadError? program = some .emptyProgram := if_pos h

theorem loadError?_of_gt {program : List Byte} (h : Config.progMax < program.length) :
    loadError? program = some .programTooLarge := by
  rw [loadError?, if_neg (by omega), if_pos h]

theorem loadError?_of_le {program : List Byte} (hpos : 1 ≤ program.length) (hmax : program.length ≤ Config.progMax) :
    loadError? program = none := by
  rw [loadError?, if_neg (by omega), if_neg (by omega)]

/-- The machine of R202 to R204, which a load that is not rejected gives. -/
def loadedMachine (params : Config.Params) (font : Config.Font) (program : List Byte) : State :=
  { State.reset with params := params, mem := loadImage font program }

section
variable {params : Config.Params} {font : Config.Font} {program : List Byte}

theorem resetLoad_of_none (h : loadError? program = none) :
    resetLoad params font program = .ok (loadedMachine params font program) := by
  rw [resetLoad, h]; rfl

theorem resetLoad_of_some {e : LoadError} (h : loadError? program = some e) :
    resetLoad params font program = .error e := by
  rw [resetLoad, h]

/-- A `reset_load` event that is not rejected keeps nothing of the old state but the model's input fields (R200). -/
theorem State.loadEvent_of_none (s : State) (h : loadError? program = none) :
    s.loadEvent params font program =
      .loaded ((loadedMachine params font program).withInputs s.inputs s.draws) := by
  rw [State.loadEvent, resetLoad_of_none h]; rfl

theorem State.loadEvent_of_some (s : State) {e : LoadError} (h : loadError? program = some e) :
    s.loadEvent params font program = .loadError e := by
  rw [State.loadEvent, resetLoad_of_some h]

end

/-- Settles O25: the load error of each length decides the event. -/
theorem resetLoadRejections : Obligations.ResetLoadRejections := fun s _ _ _ =>
  ⟨fun hempty => s.loadEvent_of_some (loadError?_of_empty hempty),
    fun hlarge => s.loadEvent_of_some (loadError?_of_gt hlarge),
    fun hpos hmax => ⟨_, s.loadEvent_of_none (loadError?_of_le hpos hmax), rfl, rfl⟩⟩

/-! ## The memory image (R202) -/

theorem fontBase_add_le (font : Config.Font) : Config.fontBase + font.toList.length ≤ Config.memSize := by
  rw [Vector.length_toList]; decide

theorem wf_fontImage (font : Config.Font) : (Memory.writeBytes [] Config.fontBase font.toList).wf = true :=
  Memory.wf_writeBytes rfl (fontBase_add_le font)

/-- A font over the reset image replaces all 80 cells of the default font, and 0x00 stays elsewhere (R202, D17). -/
theorem read_fontImage (font : Config.Font) (a : Nat) :
    (Memory.writeBytes [] Config.fontBase font.toList).read a =
      if 0x050 ≤ a ∧ a < 0x0A0 then font.toList.getD (a - 0x050) 0#8 else 0#8 := by
  rw [Memory.read_writeBytes (m := []) rfl (fontBase_add_le font), Vector.length_toList, Config.fontBase]
  by_cases hin : 0x050 ≤ a ∧ a < 0x0A0
  · rw [if_pos hin, if_pos hin]
  · rw [if_neg hin, if_neg hin, Memory.read, unlistedByte_eq, if_neg hin]

/-- A program of at most 3584 bytes fits from 0x200 to the end of memory (R4). -/
theorem progBase_add_le {program : List Byte} (h : program.length ≤ Config.progMax) :
    Config.progBase + program.length ≤ Config.memSize := Nat.add_le_add_left h Config.progBase

theorem wf_loadImage (font : Config.Font) {program : List Byte} (h : program.length ≤ Config.progMax) :
    (loadImage font program).wf = true := Memory.wf_writeBytes (wf_fontImage font) (progBase_add_le h)

/-- The program at 0x200 over the font at 0x050 over zeros (R202, D17). -/
theorem read_loadImage (font : Config.Font) {program : List Byte} (h : program.length ≤ Config.progMax) (a : Nat) :
    (loadImage font program).read a =
      if 0x200 ≤ a ∧ a < 0x200 + program.length then program.getD (a - 0x200) 0#8
      else if 0x050 ≤ a ∧ a < 0x0A0 then font.toList.getD (a - 0x050) 0#8 else 0#8 := by
  rw [loadImage, Memory.read_writeBytes (wf_fontImage font) (progBase_add_le h), read_fontImage, Config.progBase]

/-! ## The loaded machine -/

/-- A loaded machine meets the invariant: its memory is canonical, and the rest is as after reset. -/
theorem invariant_loadedMachine (params : Config.Params) (font : Config.Font) {program : List Byte}
    (h : program.length ≤ Config.progMax) : Invariant (loadedMachine params font program) where
  memory := wf_loadImage font h
  stack depth _ := Nat.zero_le depth
  returns := invariant_reset.returns
  pc := invariant_reset.pc
  parked _ hr := by cases hr

/-- Settles O24: the invariant and the memory image by their lemmas; all other state is that of reset. -/
theorem resetLoadBuildsMachine : Obligations.ResetLoadBuildsMachine := fun params font _ hpos hmax =>
  ⟨_, resetLoad_of_none (loadError?_of_le hpos hmax), invariant_loadedMachine params font hmax,
    read_loadImage font hmax, reg_reset, rfl, rfl, rfl, rfl, rfl, pixel_reset, rfl, rfl⟩

end Sys2Proof.Machine
end
